-- ==== Sys2Proof/Word.lean ====
section
/-! DEFINITION. The byte of the program space and of an encoded instruction, and the register count. -/

namespace Sys2Proof

/-- One location of the program byte space (20_memory.md R51). -/
abbrev Byte := BitVec 8

/-- `NREG`, the number of register slots, fixed (00_scope.md R9). -/
abbrev nReg : Nat := 32

end Sys2Proof
end

