-- ==== Sys2Proof/Config.lean ====
section
/-! DEFINITION. What an implementation fixes and the spec leaves open: the program-counter width, the longest
program, and the bits of a NaN result. Every open value is an opaque constant with no body. -/

namespace Sys2Proof

/-- The four arithmetic operations of 43_arith.md R172 to R175. -/
inductive ArithOp
  | add
  | sub
  | mul
  | div
deriving DecidableEq, Repr

/-- `W_PC`, the width of the program counter in bits: open (00_scope.md R12, log entry 3). -/
opaque Config.wPc : Nat

/-- The implementation's own limit on the program length, before R12's bound is applied (log entry 3). -/
opaque Config.lenLimit : Nat

/-- `LEN_MAX`, the longest program SETPROG accepts: open, and at most `2^W_PC - 1` (00_scope.md R12). Every
value R12 allows is the value for some `Config.lenLimit`. -/
def Config.lenMax : Nat := min Config.lenLimit (2 ^ Config.wPc - 1)

/-- The draw behind `NAN_RESULT` at binary32 (00_scope.md R13): free, and fresh at every draw number `k`. It may
also depend on the operation and the operands, so that no statement can make two NaN results agree for want of an
argument (log entry 4). -/
opaque Config.nanDraw32 (k : Nat) (op : ArithOp) (x y : BitVec 32) : BitVec 32

/-- The draw behind `NAN_RESULT` at binary64, as `Config.nanDraw32`. -/
opaque Config.nanDraw64 (k : Nat) (op : ArithOp) (x y : BitVec 64) : BitVec 64

end Sys2Proof
end

