-- ==== Sys2Proof/Machine/State.lean ====
section
/-! DEFINITION. The state of the engine as plain data: everything 10_state.md R20 lists, the model's own draw counter,
and the state after reset. -/

namespace Sys2Proof.Machine

open Sys2Proof

/-- The eleven kinds, a closed set (10_state.md R22). -/
inductive Kind
  | none
  | u8
  | i8
  | u16
  | i16
  | u32
  | i32
  | u64
  | i64
  | f32
  | f64
deriving DecidableEq, Repr

/-- The eight integer kinds (10_state.md R23). -/
inductive IntKind
  | u8
  | i8
  | u16
  | i16
  | u32
  | i32
  | u64
  | i64
deriving DecidableEq, Repr

/-- A value, one of eleven forms (00_scope.md R16). The payload is the bit pattern at the kind's width (R11): an
unsigned kind is read with `toNat`, a signed kind with `toInt` (two's complement, 10_state.md R23), a float kind is
the IEEE-754 pattern itself (R24). -/
inductive Value
  | none
  | u8 (n : BitVec 8)
  | i8 (n : BitVec 8)
  | u16 (n : BitVec 16)
  | i16 (n : BitVec 16)
  | u32 (n : BitVec 32)
  | i32 (n : BitVec 32)
  | u64 (n : BitVec 64)
  | i64 (n : BitVec 64)
  | f32 (bits : BitVec 32)
  | f64 (bits : BitVec 64)
deriving DecidableEq, Repr

/-- `RUN_STATE` (10_state.md R38). The code 3 is never held. -/
inductive RunState
  | ready
  | running
  | stopped
deriving DecidableEq, Repr

/-- `STOP_CAUSE` (10_state.md R40, 60_exceptions.md R221). The codes 5 to 7, 14 and 15 are never held. -/
inductive StopCause
  /-- Not stopped. -/
  | none
  /-- Benign: the end-of-program test (40_cycle_and_host.md R103). -/
  | endOfProgram
  /-- Benign: HALT (41_halt_illegal.md R140). -/
  | halted
  /-- Benign: ILLEGAL (R141). -/
  | illegalOpcode
  /-- Benign: MUL or DIV of mismatched kinds or None (43_arith.md R174, R175). -/
  | mulDivTypeMismatch
  /-- Fatal: ADD or SUB of mismatched kinds or None (R172, R173). -/
  | addSubTypeMismatch
  /-- Fatal: a register index of 32 or more (10_state.md R28). -/
  | indexOutOfRange
  /-- Fatal: an integer DIV by 0 (43_arith.md R175). -/
  | divideByZero
  /-- Fatal: an integer result outside its kind's range (R176). -/
  | overflow
  /-- Fatal: an instruction's bytes run past the program (20_memory.md R53). -/
  | decodeOutOfBounds
  /-- Fatal: a step with an empty program (40_cycle_and_host.md R102). -/
  | emptyProgram
deriving DecidableEq, Repr

/-- The kinds of diagnostic notice (10_state.md R42). -/
inductive DiagKind
  | haltNotice
  | illegalNotice
deriving DecidableEq, Repr

/-- `Diag(k, a)` (10_state.md R42). -/
structure DiagEvent where
  kind : DiagKind
  off : Nat
deriving DecidableEq, Repr

/-- The program byte space as (offset, byte) cells (20_memory.md R51). In canonical form the cells stand at offsets
0, 1, 2, … in order, so the length of the list is `len(prog)` (log entry 6). An unlisted offset holds nothing. -/
abbrev Memory := List Host.Cell

/-- The engine state (10_state.md R20). -/
structure State where
  /-- The register file `x[0..31]` (R21). -/
  regs : Vector Value 32
  /-- The program counter, an offset into the program (R33; a natural number as 00_scope.md R12 allows). -/
  pc : Nat
  /-- The program buffer (R36). -/
  prog : Memory
  /-- `RUN_STATE` (R38). -/
  runState : RunState
  /-- `STOP_CAUSE` (R40). -/
  stopCause : StopCause
  /-- `STOP_ADDR` (R41). -/
  stopAddr : Nat
  /-- `DIAG`, oldest event first (R42). -/
  diag : List DiagEvent
  /-- The MODEL's own field: how many draws of `NAN_RESULT` have been written (log entry 5). -/
  nanDraws : Nat
deriving DecidableEq, Repr

/-- Why a step would stop outside the state. It has no constructor: every stop and every fault of the spec is a change
of the state (60_exceptions.md R220, R224, R225), so none is raised; that is safe (log entry 1). -/
inductive Fault
deriving DecidableEq, Repr

/-- Why an instruction has no meaning. -/
inductive Refusal
  /-- Raised by an arm of `exec` for an instruction without a meaning. No arm raises it: every instruction has its
  meaning. A refusal would be safe. -/
  | notModelled (mnemonic : String)
deriving DecidableEq, Repr

/-- The engine right after reset (70_reset_and_hazards.md R260). `nanDraws` is the model's own field and its 0 is a
DESIGN CHOICE (log entry 5). -/
def State.reset : State where
  regs := Vector.replicate 32 (Value.u8 0)
  pc := 0
  prog := []
  runState := .ready
  stopCause := .none
  stopAddr := 0
  diag := []
  nanDraws := 0

end Sys2Proof.Machine
end

