-- ==== Sys2Proof/Machine/Flags.lean ====
section
/-! DEFINITION. The engine has no flags (10_state.md R43). What stands in their place is the range check of an integer
result (43_arith.md R176) and the kind check of two operands (R170). -/

namespace Sys2Proof.Machine

open Sys2Proof

/-- The width of an integer kind in bits (00_scope.md R11). -/
def IntKind.bits : IntKind → Nat
  | .u8 => 8
  | .i8 => 8
  | .u16 => 16
  | .i16 => 16
  | .u32 => 32
  | .i32 => 32
  | .u64 => 64
  | .i64 => 64

/-- Whether an integer kind is signed (10_state.md R23). -/
def IntKind.signed : IntKind → Bool
  | .u8 => false
  | .i8 => true
  | .u16 => false
  | .i16 => true
  | .u32 => false
  | .i32 => true
  | .u64 => false
  | .i64 => true

/-- The least payload of an integer kind (10_state.md R23). -/
def IntKind.lo (k : IntKind) : Int := if k.signed then -(2 ^ (k.bits - 1) : Nat) else 0

/-- The greatest payload of an integer kind (10_state.md R23). -/
def IntKind.hi (k : IntKind) : Int := if k.signed then (2 ^ (k.bits - 1) : Nat) - 1 else (2 ^ k.bits : Nat) - 1

/-- `r in range(K)` (43_arith.md R176). -/
def IntKind.inRange (k : IntKind) (r : Int) : Bool := decide (k.lo ≤ r ∧ r ≤ k.hi)

/-- `kind(v)` (00_scope.md R16). -/
def Value.kind : Value → Kind
  | .none => .none
  | .u8 _ => .u8
  | .i8 _ => .i8
  | .u16 _ => .u16
  | .i16 _ => .i16
  | .u32 _ => .u32
  | .i32 _ => .i32
  | .u64 _ => .u64
  | .i64 _ => .i64
  | .f32 _ => .f32
  | .f64 _ => .f64

/-- `SameKind(va, vb)` (43_arith.md R170): the kinds agree and are not None. -/
def sameKind (va vb : Value) : Bool := decide (va.kind = vb.kind) && decide (va.kind ≠ .none)

end Sys2Proof.Machine
end

