-- ==== Sys2Proof/Machine/Float.lean ====
section
/-! DEFINITION. IEEE-754 binary32 and binary64 addition, subtraction, multiplication and division in roundTiesToEven,
with subnormals kept, no trap and no flag (00_scope.md R18; 43_arith.md R180 to R182). A finite datum is an integer
times a power of two, the operation is computed exactly, and the exact result is rounded once. -/

namespace Sys2Proof.Machine

open Sys2Proof

/-- A binary interchange format: the widths of its exponent and fraction fields. -/
structure FloatFormat where
  expBits : Nat
  fracBits : Nat
deriving DecidableEq, Repr

/-- binary32, the format of F32 (10_state.md R24). -/
def binary32 : FloatFormat := ⟨8, 23⟩

/-- binary64, the format of F64. -/
def binary64 : FloatFormat := ⟨11, 52⟩

/-- A datum: NaN, an infinity, or the finite number `(-1)^neg * mant * 2^exp`. -/
inductive Datum
  | nan
  | inf (neg : Bool)
  | finite (neg : Bool) (mant : Nat) (exp : Int)
deriving DecidableEq, Repr

/-- The exponent of the least subnormal: -149 for binary32, -1074 for binary64. -/
def FloatFormat.minExp (f : FloatFormat) : Int := 2 - (2 ^ (f.expBits - 1) : Nat) - (f.fracBits : Nat)

/-- The exponent field of infinities and NaNs: all ones. -/
def FloatFormat.topExp (f : FloatFormat) : Nat := 2 ^ f.expBits - 1

/-- The weight of the exponent field's least bit in a bit pattern. -/
def FloatFormat.expUnit (f : FloatFormat) : Nat := 2 ^ f.fracBits

/-- The weight of the sign bit in a bit pattern. -/
def FloatFormat.signUnit (f : FloatFormat) : Nat := 2 ^ (f.expBits + f.fracBits)

/-- The bit pattern of a sign and a magnitude. -/
def FloatFormat.withSign (f : FloatFormat) (neg : Bool) (mag : Nat) : Nat := (if neg then f.signUnit else 0) + mag

/-- The bit pattern of an infinity. -/
def FloatFormat.infinity (f : FloatFormat) (neg : Bool) : Nat := f.withSign neg (f.topExp * f.expUnit)

/-- The datum a bit pattern stands for. -/
def FloatFormat.unpack (f : FloatFormat) (bits : Nat) : Datum :=
  let neg := decide (bits / f.signUnit % 2 = 1)
  let e := bits / f.expUnit % 2 ^ f.expBits
  let m := bits % f.expUnit
  if e = f.topExp then (if m = 0 then .inf neg else .nan)
  else if e = 0 then .finite neg m f.minExp
  else .finite neg (f.expUnit + m) (f.minExp + (e - 1 : Nat))

/-- `num / den` rounded to an integer, ties to even. -/
def roundQuotient (num den : Nat) : Nat :=
  let q := num / den
  let r := num % den
  if den < 2 * r ∨ (2 * r = den ∧ q % 2 = 1) then q + 1 else q

/-- `floor(log2(num / den))` for positive `num` and `den`. -/
def floorLog2 (num den : Nat) : Int :=
  let l : Int := (num.log2 : Int) - (den.log2 : Int)
  if den * 2 ^ l.toNat ≤ num * 2 ^ (-l).toNat then l else l - 1

/-- The exponent of the last place kept when `num / den * 2 ^ exp` is rounded: as many bits as the significand holds,
but never below the least subnormal. -/
def FloatFormat.quantum (f : FloatFormat) (num den : Nat) (exp : Int) : Int :=
  max (floorLog2 num den + exp - (f.fracBits : Nat)) f.minExp

/-- The bit pattern of `(-1)^neg * num / den * 2 ^ exp` rounded to the format in roundTiesToEven (`den` positive): a
zero of that sign for 0, an infinity past the greatest finite number. The significand, added to its exponent's place,
carries into the exponent field when it rounds up to a power of two. -/
def FloatFormat.round (f : FloatFormat) (neg : Bool) (num den : Nat) (exp : Int) : Nat :=
  if num = 0 then f.withSign neg 0
  else
    let q := f.quantum num den exp
    let sig := roundQuotient (num * 2 ^ (exp - q).toNat) (den * 2 ^ (q - exp).toNat)
    let mag := (q - f.minExp).toNat * f.expUnit + sig
    if f.topExp * f.expUnit ≤ mag then f.infinity neg else f.withSign neg mag

/-- A signed integer from a sign and a magnitude. -/
def signedInt (neg : Bool) (m : Nat) : Int := if neg then -(m : Int) else m

/-- The datum with its sign turned. -/
def Datum.negate : Datum → Datum
  | .nan => .nan
  | .inf n => .inf (!n)
  | .finite n m e => .finite (!n) m e

/-- The IEEE-754 sum; `none` is NaN. An exact zero sum is `+0` unless both operands are negative (43_arith.md R172). -/
def FloatFormat.add (f : FloatFormat) : Datum → Datum → Option Nat
  | .nan, _ => none
  | _, .nan => none
  | .inf a, .inf b => if a = b then some (f.infinity a) else none
  | .inf a, .finite _ _ _ => some (f.infinity a)
  | .finite _ _ _, .inf b => some (f.infinity b)
  | .finite a m e, .finite b n g =>
    let lo := min e g
    let sum := signedInt a (m * 2 ^ (e - lo).toNat) + signedInt b (n * 2 ^ (g - lo).toNat)
    some (f.round (if sum = 0 then a && b else decide (sum < 0)) sum.natAbs 1 lo)

/-- The IEEE-754 difference: the sum with the subtrahend's sign turned. -/
def FloatFormat.sub (f : FloatFormat) (x y : Datum) : Option Nat := f.add x y.negate

/-- The IEEE-754 product; `none` is NaN. The sign is the exclusive or of the operands' signs. -/
def FloatFormat.mul (f : FloatFormat) : Datum → Datum → Option Nat
  | .nan, _ => none
  | _, .nan => none
  | .inf a, .inf b => some (f.infinity (a ^^ b))
  | .inf a, .finite b n _ => if n = 0 then none else some (f.infinity (a ^^ b))
  | .finite a m _, .inf b => if m = 0 then none else some (f.infinity (a ^^ b))
  | .finite a m e, .finite b n g => some (f.round (a ^^ b) (m * n) 1 (e + g))

/-- The IEEE-754 quotient; `none` is NaN. A zero divisor gives an infinity, or NaN for a zero or NaN dividend
(43_arith.md R181). -/
def FloatFormat.div (f : FloatFormat) : Datum → Datum → Option Nat
  | .nan, _ => none
  | _, .nan => none
  | .inf _, .inf _ => none
  | .inf a, .finite b _ _ => some (f.infinity (a ^^ b))
  | .finite a _ _, .inf b => some (f.withSign (a ^^ b) 0)
  | .finite a m e, .finite b n g =>
    if n = 0 then (if m = 0 then none else some (f.infinity (a ^^ b)))
    else some (f.round (a ^^ b) m n (e - g))

/-- The operation an `ArithOp` names. -/
def FloatFormat.op (f : FloatFormat) : ArithOp → Datum → Datum → Option Nat
  | .add => f.add
  | .sub => f.sub
  | .mul => f.mul
  | .div => f.div

/-- `fadd_32`, `fsub_32`, `fmul_32`, `fdiv_32` on bit patterns; `none` is NaN (00_scope.md R18). -/
def floatOp32 (op : ArithOp) (x y : BitVec 32) : Option (BitVec 32) :=
  (binary32.op op (binary32.unpack x.toNat) (binary32.unpack y.toNat)).map (BitVec.ofNat 32)

/-- `fadd_64`, `fsub_64`, `fmul_64`, `fdiv_64` on bit patterns; `none` is NaN. -/
def floatOp64 (op : ArithOp) (x y : BitVec 64) : Option (BitVec 64) :=
  (binary64.op op (binary64.unpack x.toNat) (binary64.unpack y.toNat)).map (BitVec.ofNat 64)

/-- Whether a binary32 pattern is a NaN encoding: all exponent bits set and a non-zero fraction (00_scope.md R13). -/
def isNaN32 (b : BitVec 32) : Bool := decide (b &&& 0x7F800000#32 = 0x7F800000#32) && decide (b &&& 0x007FFFFF#32 ≠ 0#32)

/-- Whether a binary64 pattern is a NaN encoding. -/
def isNaN64 (b : BitVec 64) : Bool :=
  decide (b &&& 0x7FF0000000000000#64 = 0x7FF0000000000000#64) && decide (b &&& 0x000FFFFFFFFFFFFF#64 ≠ 0#64)

/-- A NaN encoding from free bits: the exponent bits are set, and a zero fraction is made non-zero. Every NaN encoding
comes from some bits, so the spec's limit (00_scope.md R13) is kept and nothing more is fixed (log entry 4). -/
def nanOf32 (raw : BitVec 32) : BitVec 32 :=
  if raw &&& 0x007FFFFF#32 = 0#32 then raw ||| 0x7FC00000#32 else raw ||| 0x7F800000#32

/-- A binary64 NaN encoding from free bits. -/
def nanOf64 (raw : BitVec 64) : BitVec 64 :=
  if raw &&& 0x000FFFFFFFFFFFFF#64 = 0#64 then raw ||| 0x7FF8000000000000#64 else raw ||| 0x7FF0000000000000#64

end Sys2Proof.Machine
end

