-- ==== Sys2Proof/Machine/Ops.lean ====
section
/-! DEFINITION. The named operations every meaning is built from: register access, the advance of the program counter,
completion, the diagnostic event, and the one operation by which a step stops or faults. -/

namespace Sys2Proof.Machine

open Sys2Proof

/-- `x[i]`, nothing when `i >= 32` (00_scope.md R17, 10_state.md R28). -/
def readReg (i : Nat) (s : State) : Option Value := s.regs[i]?

/-- The state with one register replaced, the whole value, kind included (10_state.md R29). -/
def setReg (i : Nat) (h : i < 32) (v : Value) (s : State) : State := { s with regs := s.regs.set i v h }

/-- `x[i] <- v`, nothing when `i >= 32` (00_scope.md R17, 10_state.md R28). -/
def writeReg (i : Nat) (v : Value) (s : State) : Option State := if h : i < 32 then some (setReg i h v s) else none

/-- The state after `n` more draws of `NAN_RESULT`, the model's own count (log entry 5). -/
def takeDraws (n : Nat) (s : State) : State := { s with nanDraws := s.nanDraws + n }

/-- The decode's advance of the program counter past the `n` bytes of an instruction, before it executes
(40_cycle_and_host.md R105). -/
def advance (n : Nat) (s : State) : State := { s with pc := s.pc + n }

/-- The end of a step whose instruction completes (40_cycle_and_host.md R107). -/
def complete (s : State) : State := { s with runState := .running }

/-- `emit Diag(k, a)` (60_exceptions.md R229). -/
def emitDiag (k : DiagKind) (off : Nat) (s : State) : State := { s with diag := s.diag ++ [⟨k, off⟩] }

/-- What every stop and every fault does to the state: Stopped, with the cause and the offset at which it was detected
(60_exceptions.md R220, R224, R225). No register is written, and `pc` is as the step left it. -/
def endStep (c : StopCause) (off : Nat) (s : State) : State :=
  { s with runState := .stopped, stopCause := c, stopAddr := off }

/-- `stop(c)`, a benign stop (60_exceptions.md R224). -/
def stopBenign (c : StopCause) (off : Nat) (s : State) : State := endStep c off s

/-- `raise Fault(c)`, a fatal fault (60_exceptions.md R225). -/
def raiseFault (c : StopCause) (off : Nat) (s : State) : State := endStep c off s

/-- The only ways out of Stopped restart the engine: this is what SETPROG and a placed program do to the status
(40_cycle_and_host.md R121, 60_exceptions.md R231). -/
def restart (pc : Nat) (prog : Memory) (s : State) : State :=
  { s with pc := pc, prog := prog, runState := .ready, stopCause := .none, stopAddr := 0 }

/-- The 2-bit code of a run state (10_state.md R38). -/
def RunState.code : RunState → BitVec 2
  | .ready => 0
  | .running => 1
  | .stopped => 2

/-- The 4-bit code of a stop cause (60_exceptions.md R221). -/
def StopCause.code : StopCause → BitVec 4
  | .none => 0
  | .endOfProgram => 1
  | .halted => 2
  | .illegalOpcode => 3
  | .mulDivTypeMismatch => 4
  | .addSubTypeMismatch => 8
  | .indexOutOfRange => 9
  | .divideByZero => 10
  | .overflow => 11
  | .decodeOutOfBounds => 12
  | .emptyProgram => 13

/-- The class column of 60_exceptions.md R221: which causes are fatal. -/
def StopCause.isFatal : StopCause → Bool
  | .none => false
  | .endOfProgram => false
  | .halted => false
  | .illegalOpcode => false
  | .mulDivTypeMismatch => false
  | .addSubTypeMismatch => true
  | .indexOutOfRange => true
  | .divideByZero => true
  | .overflow => true
  | .decodeOutOfBounds => true
  | .emptyProgram => true

end Sys2Proof.Machine
end

