-- ==== Sys2Proof/Machine/Operands.lean ====
section
/-! DEFINITION. The operand forms: the write of a loaded value (42_load.md R150), the fetch of two sources and the type
dispatch of the three-register operations (43_arith.md R170), and the arithmetic of each kind (R176 to R182). -/

namespace Sys2Proof.Machine

open Sys2Proof

/-- `K(r)` for an integer kind: the value of kind `K` with payload `r` (00_scope.md R16). -/
def IntKind.mk (k : IntKind) (r : Int) : Value :=
  match k with
  | .u8 => .u8 (BitVec.ofInt 8 r)
  | .i8 => .i8 (BitVec.ofInt 8 r)
  | .u16 => .u16 (BitVec.ofInt 16 r)
  | .i16 => .i16 (BitVec.ofInt 16 r)
  | .u32 => .u32 (BitVec.ofInt 32 r)
  | .i32 => .i32 (BitVec.ofInt 32 r)
  | .u64 => .u64 (BitVec.ofInt 64 r)
  | .i64 => .i64 (BitVec.ofInt 64 r)

/-- The integer kind and payload `val(v)` of an integer value (00_scope.md R16). -/
def Value.asInt : Value → Option (IntKind × Int)
  | .none => Option.none
  | .u8 n => some (.u8, n.toNat)
  | .i8 n => some (.i8, n.toInt)
  | .u16 n => some (.u16, n.toNat)
  | .i16 n => some (.i16, n.toInt)
  | .u32 n => some (.u32, n.toNat)
  | .i32 n => some (.i32, n.toInt)
  | .u64 n => some (.u64, n.toNat)
  | .i64 n => some (.i64, n.toInt)
  | .f32 _ => Option.none
  | .f64 _ => Option.none

/-- `tdiv(a, b)`, the quotient rounded toward zero (00_scope.md R19). -/
def tdiv (a b : Int) : Int := (a * b).sign * ((a.natAbs / b.natAbs : Nat) : Int)

/-- The exact result of an integer operation (43_arith.md R176). -/
def exactInt (op : ArithOp) (a b : Int) : Int :=
  match op with
  | .add => a + b
  | .sub => a - b
  | .mul => a * b
  | .div => tdiv a b

/-- What an operation on two values gives: a kind mismatch (43_arith.md R170), a fatal fault, or a value together with
the number of NaN draws it took. -/
inductive ArithResult
  | mismatch
  | fault (c : StopCause)
  | value (v : Value) (draws : Nat)
deriving DecidableEq, Repr

/-- An integer operation in kind `K`: a zero divisor before the range check (43_arith.md R172 to R179). -/
def intResult (op : ArithOp) (k : IntKind) (a b : Int) : ArithResult :=
  if op = .div ∧ b = 0 then .fault .divideByZero
  else if k.inRange (exactInt op a b) then .value (k.mk (exactInt op a b)) 0
  else .fault .overflow

/-- A binary32 operation (43_arith.md R180), a NaN result taking draw number `k` (R182). -/
def floatResult32 (op : ArithOp) (k : Nat) (x y : BitVec 32) : ArithResult :=
  match floatOp32 op x y with
  | some b => .value (.f32 b) 0
  | Option.none => .value (.f32 (nanOf32 (Config.nanDraw32 k op x y))) 1

/-- A binary64 operation, as `floatResult32`. -/
def floatResult64 (op : ArithOp) (k : Nat) (x y : BitVec 64) : ArithResult :=
  match floatOp64 op x y with
  | some b => .value (.f64 b) 0
  | Option.none => .value (.f64 (nanOf64 (Config.nanDraw64 k op x y))) 1

/-- The type dispatch over the ten non-None kinds (43_arith.md R170 to R175): the result has the operands' kind, and
every other pairing is a mismatch. `k` is the number of the next NaN draw. -/
def arith (op : ArithOp) (k : Nat) (va vb : Value) : ArithResult :=
  match va, vb with
  | .u8 a, .u8 b => intResult op .u8 a.toNat b.toNat
  | .i8 a, .i8 b => intResult op .i8 a.toInt b.toInt
  | .u16 a, .u16 b => intResult op .u16 a.toNat b.toNat
  | .i16 a, .i16 b => intResult op .i16 a.toInt b.toInt
  | .u32 a, .u32 b => intResult op .u32 a.toNat b.toNat
  | .i32 a, .i32 b => intResult op .i32 a.toInt b.toInt
  | .u64 a, .u64 b => intResult op .u64 a.toNat b.toNat
  | .i64 a, .i64 b => intResult op .i64 a.toInt b.toInt
  | .f32 x, .f32 y => floatResult32 op k x y
  | .f64 x, .f64 y => floatResult64 op k x y
  | _, _ => .mismatch

/-- The last action of a LOAD or an arithmetic instruction at opcode offset `off`: the destination write, then
completion; an index of 32 or more faults (10_state.md R28, 40_cycle_and_host.md R107, R109). -/
def writeResult (rd : Byte) (v : Value) (draws off : Nat) (t : State) : State :=
  match writeReg rd.toNat v t with
  | Option.none => raiseFault .indexOutOfRange off t
  | some u => complete (takeDraws draws u)

/-- LOAD of a value by an instruction of `n` bytes (42_load.md R150). -/
def runLoad (rd : Byte) (v : Value) (n : Nat) (s : State) : State := writeResult rd v 0 s.pc (advance n s)

/-- A three-register operation (43_arith.md R170, R172 to R175), in the order of 60_exceptions.md R227: first source
index, second source index, kinds, zero divisor, range, destination index. `mismatch` says what a kind mismatch does
at the opcode offset. -/
def runR3 (op : ArithOp) (mismatch : Nat → State → State) (ra rb rd : Byte) (s : State) : State :=
  let t := advance 4 s
  match readReg ra.toNat t, readReg rb.toNat t with
  | some va, some vb =>
    match arith op t.nanDraws va vb with
    | .mismatch => mismatch s.pc t
    | .fault c => raiseFault c s.pc t
    | .value v draws => writeResult rd v draws s.pc t
  | _, _ => raiseFault .indexOutOfRange s.pc t

end Sys2Proof.Machine
end

