-- ==== Sys2Proof/Machine/Arith.lean ====
section
/-! DEFINITION. The meanings of ADD, SUB, MUL and DIV (43_arith.md R172 to R175). They differ in the operation and in
what a kind mismatch does. -/

namespace Sys2Proof.Machine

open Sys2Proof

/-- ADD (43_arith.md R172): a kind mismatch is a fatal fault. -/
def execAdd (ra rb rd : Byte) (s : State) : Host.Outcome State Fault Refusal :=
  .next (runR3 .add (raiseFault .addSubTypeMismatch) ra rb rd s)

/-- SUB (R173), `ra - rb`: a kind mismatch is a fatal fault. -/
def execSub (ra rb rd : Byte) (s : State) : Host.Outcome State Fault Refusal :=
  .next (runR3 .sub (raiseFault .addSubTypeMismatch) ra rb rd s)

/-- MUL (R174): a kind mismatch is a benign, silent stop. -/
def execMul (ra rb rd : Byte) (s : State) : Host.Outcome State Fault Refusal :=
  .next (runR3 .mul (stopBenign .mulDivTypeMismatch) ra rb rd s)

/-- DIV (R175), `ra / rb`: a kind mismatch is a benign, silent stop. -/
def execDiv (ra rb rd : Byte) (s : State) : Host.Outcome State Fault Refusal :=
  .next (runR3 .div (stopBenign .mulDivTypeMismatch) ra rb rd s)

end Sys2Proof.Machine
end

