-- ==== Sys2Proof/Machine/Halt.lean ====
section
/-! DEFINITION. The meanings of HALT and ILLEGAL (41_halt_illegal.md). -/

namespace Sys2Proof.Machine

open Sys2Proof

/-- HALT (41_halt_illegal.md R140): a notice at the opcode offset, then the benign stop HALTED. -/
def execHalt (s : State) : Host.Outcome State Fault Refusal :=
  .next (stopBenign .halted s.pc (emitDiag .haltNotice s.pc (advance 1 s)))

/-- ILLEGAL (R141): a notice at the opcode offset, then the benign stop ILLEGAL_OPCODE. The opcode byte is recorded
nowhere but in the program. -/
def execIllegal (_op : Byte) (s : State) : Host.Outcome State Fault Refusal :=
  .next (stopBenign .illegalOpcode s.pc (emitDiag .illegalNotice s.pc (advance 1 s)))

end Sys2Proof.Machine
end

