-- ==== Sys2Proof/Machine/Load.lean ====
section
/-! DEFINITION. The meanings of the eleven LOAD forms (42_load.md R150 to R161). -/

namespace Sys2Proof.Machine

open Sys2Proof

/-- LOAD, tag 0x00 (42_load.md R151). -/
def execLoadU8 (rd : Byte) (imm : BitVec 8) (s : State) : Host.Outcome State Fault Refusal :=
  .next (runLoad rd (.u8 imm) 4 s)

/-- LOAD, tag 0x01 (R152). -/
def execLoadI8 (rd : Byte) (imm : BitVec 8) (s : State) : Host.Outcome State Fault Refusal :=
  .next (runLoad rd (.i8 imm) 4 s)

/-- LOAD, tag 0x02 (R153). -/
def execLoadU16 (rd : Byte) (imm : BitVec 16) (s : State) : Host.Outcome State Fault Refusal :=
  .next (runLoad rd (.u16 imm) 5 s)

/-- LOAD, tag 0x03 (R154). -/
def execLoadI16 (rd : Byte) (imm : BitVec 16) (s : State) : Host.Outcome State Fault Refusal :=
  .next (runLoad rd (.i16 imm) 5 s)

/-- LOAD, tag 0x04 (R155). -/
def execLoadU32 (rd : Byte) (imm : BitVec 32) (s : State) : Host.Outcome State Fault Refusal :=
  .next (runLoad rd (.u32 imm) 7 s)

/-- LOAD, tag 0x05 (R156). -/
def execLoadI32 (rd : Byte) (imm : BitVec 32) (s : State) : Host.Outcome State Fault Refusal :=
  .next (runLoad rd (.i32 imm) 7 s)

/-- LOAD, tag 0x06 (R157). -/
def execLoadU64 (rd : Byte) (imm : BitVec 64) (s : State) : Host.Outcome State Fault Refusal :=
  .next (runLoad rd (.u64 imm) 11 s)

/-- LOAD, tag 0x07 (R158). -/
def execLoadI64 (rd : Byte) (imm : BitVec 64) (s : State) : Host.Outcome State Fault Refusal :=
  .next (runLoad rd (.i64 imm) 11 s)

/-- LOAD, tag 0x08 (R159): the bit pattern is kept exactly. -/
def execLoadF32 (rd : Byte) (imm : BitVec 32) (s : State) : Host.Outcome State Fault Refusal :=
  .next (runLoad rd (.f32 imm) 7 s)

/-- LOAD, tag 0x09 (R160): the bit pattern is kept exactly. -/
def execLoadF64 (rd : Byte) (imm : BitVec 64) (s : State) : Host.Outcome State Fault Refusal :=
  .next (runLoad rd (.f64 imm) 11 s)

/-- LOAD, tags 0x0A to 0xFF (R161). -/
def execLoadNone (rd : Byte) (s : State) : Host.Outcome State Fault Refusal :=
  .next (runLoad rd .none 3 s)

end Sys2Proof.Machine
end

