-- ==== Sys2Proof/Syntax.lean ====
section
/-! DEFINITION. The instructions, one constructor per row of spec/opcode_table.json (30_encoding.md R71, R76, R87).
A register index is the raw index byte, 0 to 255 (R10, R82); a payload is the assembled bit pattern (R78, R79). -/

namespace Sys2Proof

/-- An instruction of the engine. -/
inductive Instr
  /-- HALT (41_halt_illegal.md R140). -/
  | halt
  /-- LOAD, tag 0x00 (42_load.md R151). -/
  | loadU8 (rd : Byte) (imm : BitVec 8)
  /-- LOAD, tag 0x01 (R152). -/
  | loadI8 (rd : Byte) (imm : BitVec 8)
  /-- LOAD, tag 0x02 (R153). -/
  | loadU16 (rd : Byte) (imm : BitVec 16)
  /-- LOAD, tag 0x03 (R154). -/
  | loadI16 (rd : Byte) (imm : BitVec 16)
  /-- LOAD, tag 0x04 (R155). -/
  | loadU32 (rd : Byte) (imm : BitVec 32)
  /-- LOAD, tag 0x05 (R156). -/
  | loadI32 (rd : Byte) (imm : BitVec 32)
  /-- LOAD, tag 0x06 (R157). -/
  | loadU64 (rd : Byte) (imm : BitVec 64)
  /-- LOAD, tag 0x07 (R158). -/
  | loadI64 (rd : Byte) (imm : BitVec 64)
  /-- LOAD, tag 0x08 (R159): `imm` is the binary32 bit pattern. -/
  | loadF32 (rd : Byte) (imm : BitVec 32)
  /-- LOAD, tag 0x09 (R160): `imm` is the binary64 bit pattern. -/
  | loadF64 (rd : Byte) (imm : BitVec 64)
  /-- LOAD, tags 0x0A to 0xFF (R161). Every such tag decodes to the same instruction (30_encoding.md R86), so the
  tag is no operand (log entry 8). -/
  | loadNone (rd : Byte)
  /-- ADD (43_arith.md R172): sources `ra`, `rb`, destination `rd`. -/
  | add (ra rb rd : Byte)
  /-- SUB (R173): `ra` is the minuend. -/
  | sub (ra rb rd : Byte)
  /-- MUL (R174). -/
  | mul (ra rb rd : Byte)
  /-- DIV (R175): `ra` is the dividend. -/
  | div (ra rb rd : Byte)
  /-- ILLEGAL (41_halt_illegal.md R141): `op` is the opcode byte itself, 0x06 to 0xFF. -/
  | illegal (op : Byte)
deriving DecidableEq, Repr

end Sys2Proof
end

