-- ==== Sys2Proof/Machine/Dispatch.lean ====
section
/-! DEFINITION. One arm per instruction (40_cycle_and_host.md R106). `exec i s` runs `i` as the instruction whose opcode
stands at `s.pc`: it advances `pc` past the instruction, then executes it (R105, log entry 7). -/

namespace Sys2Proof.Machine

open Sys2Proof

def exec (i : Instr) (s : State) : Host.Outcome State Fault Refusal :=
  match i with
  | .halt => Sys2Proof.Machine.execHalt s
  | .loadU8 rd imm => Sys2Proof.Machine.execLoadU8 rd imm s
  | .loadI8 rd imm => Sys2Proof.Machine.execLoadI8 rd imm s
  | .loadU16 rd imm => Sys2Proof.Machine.execLoadU16 rd imm s
  | .loadI16 rd imm => Sys2Proof.Machine.execLoadI16 rd imm s
  | .loadU32 rd imm => Sys2Proof.Machine.execLoadU32 rd imm s
  | .loadI32 rd imm => Sys2Proof.Machine.execLoadI32 rd imm s
  | .loadU64 rd imm => Sys2Proof.Machine.execLoadU64 rd imm s
  | .loadI64 rd imm => Sys2Proof.Machine.execLoadI64 rd imm s
  | .loadF32 rd imm => Sys2Proof.Machine.execLoadF32 rd imm s
  | .loadF64 rd imm => Sys2Proof.Machine.execLoadF64 rd imm s
  | .loadNone rd => Sys2Proof.Machine.execLoadNone rd s
  | .add ra rb rd => Sys2Proof.Machine.execAdd ra rb rd s
  | .sub ra rb rd => Sys2Proof.Machine.execSub ra rb rd s
  | .mul ra rb rd => Sys2Proof.Machine.execMul ra rb rd s
  | .div ra rb rd => Sys2Proof.Machine.execDiv ra rb rd s
  | .illegal op => Sys2Proof.Machine.execIllegal op s

end Sys2Proof.Machine
end

