-- ==== Sys2Proof/WellFormed.lean ====
section
/-! DEFINITION. Which terms of `Instr` stand for an instruction of the encoding. -/

namespace Sys2Proof

/-- A term is well formed when its operands lie in the ranges of the encoding. Every register index byte and every
payload is allowed (30_encoding.md R82, R78); the opcode byte of an ILLEGAL is 0x06 to 0xFF (41_halt_illegal.md
R141), since 0x00 to 0x05 are other instructions (30_encoding.md R71). -/
def Instr.wf : Instr → Bool
  | .halt => true
  | .loadU8 _ _ => true
  | .loadI8 _ _ => true
  | .loadU16 _ _ => true
  | .loadI16 _ _ => true
  | .loadU32 _ _ => true
  | .loadI32 _ _ => true
  | .loadU64 _ _ => true
  | .loadI64 _ _ => true
  | .loadF32 _ _ => true
  | .loadF64 _ _ => true
  | .loadNone _ => true
  | .add _ _ _ => true
  | .sub _ _ _ => true
  | .mul _ _ _ => true
  | .div _ _ _ => true
  | .illegal op => decide (0x06 ≤ op.toNat)

end Sys2Proof
end

