-- ==== Sys2Proof/Decode.lean ====
section
/-! DEFINITION. The decoder (30_encoding.md R70 to R84, 40_cycle_and_host.md R104), total on any bytes and rejecting
by name; the encoder from the same tables; the opcode table of R87 as data; and the assembly text of R85. -/

namespace Sys2Proof

/-- Why a byte sequence is no instruction: it ends before the instruction does (20_memory.md R53). There is no other
reason, since every opcode and every tag decodes (30_encoding.md R84). -/
inductive DecodeError
  | outOfBounds
deriving DecidableEq, Repr

/-- `le(b0 .. bk)` of 00_scope.md R15. -/
def leNat : List Byte → Nat
  | [] => 0
  | b :: bs => b.toNat + 256 * leNat bs

/-- `be(b0 .. bk)` of 00_scope.md R15. -/
def beNat (bs : List Byte) : Nat := leNat bs.reverse

/-- The `n` bytes of `v`, low byte first. -/
def leBytes : Nat → Nat → List Byte
  | 0, _ => []
  | n + 1, v => BitVec.ofNat 8 (v % 256) :: leBytes n (v / 256)

/-- The `n` bytes of `v`, high byte first. -/
def beBytes (n v : Nat) : List Byte := (leBytes n v).reverse

/-- `w(tag)`, the payload width in bytes (30_encoding.md R76). -/
def payloadWidth (tag : Byte) : Nat :=
  match tag.toNat with
  | 0 => 1
  | 1 => 1
  | 2 => 2
  | 3 => 2
  | 4 => 4
  | 5 => 4
  | 6 => 8
  | 7 => 8
  | 8 => 4
  | 9 => 8
  | _ => 0

/-- The LOAD that a tag and its payload bytes stand for: 16-bit payloads are big-endian, wider ones little-endian
(30_encoding.md R76, R78, R79; 20_memory.md R56), and every other tag is None (R77). -/
def loadOf (rd tag : Byte) (p : List Byte) : Instr :=
  match tag.toNat with
  | 0 => .loadU8 rd (BitVec.ofNat 8 (leNat p))
  | 1 => .loadI8 rd (BitVec.ofNat 8 (leNat p))
  | 2 => .loadU16 rd (BitVec.ofNat 16 (beNat p))
  | 3 => .loadI16 rd (BitVec.ofNat 16 (beNat p))
  | 4 => .loadU32 rd (BitVec.ofNat 32 (leNat p))
  | 5 => .loadI32 rd (BitVec.ofNat 32 (leNat p))
  | 6 => .loadU64 rd (BitVec.ofNat 64 (leNat p))
  | 7 => .loadI64 rd (BitVec.ofNat 64 (leNat p))
  | 8 => .loadF32 rd (BitVec.ofNat 32 (leNat p))
  | 9 => .loadF64 rd (BitVec.ofNat 64 (leNat p))
  | _ => .loadNone rd

/-- The operand bytes of a LOAD: register index, tag, then `w(tag)` payload bytes (40_cycle_and_host.md R104). -/
def decodeLoad : List Byte → Except DecodeError Instr
  | rd :: tag :: rest =>
    if payloadWidth tag ≤ rest.length then .ok (loadOf rd tag (rest.take (payloadWidth tag)))
    else .error .outOfBounds
  | _ => .error .outOfBounds

/-- The operand bytes of format R3: first source, second source, destination (30_encoding.md R73, R75). -/
def decodeR3 (mk : Byte → Byte → Byte → Instr) : List Byte → Except DecodeError Instr
  | ra :: rb :: rd :: _ => .ok (mk ra rb rd)
  | _ => .error .outOfBounds

/-- The instruction at the head of a byte sequence (40_cycle_and_host.md R104, opcode map 30_encoding.md R71). Bytes
after the instruction are not looked at. -/
def decode : List Byte → Except DecodeError Instr
  | [] => .error .outOfBounds
  | op :: rest =>
    if op = 0x00 then .ok .halt
    else if op = 0x01 then decodeLoad rest
    else if op = 0x02 then decodeR3 .add rest
    else if op = 0x03 then decodeR3 .sub rest
    else if op = 0x04 then decodeR3 .mul rest
    else if op = 0x05 then decodeR3 .div rest
    else .ok (.illegal op)

/-- The longest instruction, in bytes (30_encoding.md R70). -/
def maxLength : Nat := 11

/-- The length of an instruction in bytes (30_encoding.md R80). -/
def Instr.length : Instr → Nat
  | .halt => 1
  | .loadU8 _ _ => 4
  | .loadI8 _ _ => 4
  | .loadU16 _ _ => 5
  | .loadI16 _ _ => 5
  | .loadU32 _ _ => 7
  | .loadI32 _ _ => 7
  | .loadU64 _ _ => 11
  | .loadI64 _ _ => 11
  | .loadF32 _ _ => 7
  | .loadF64 _ _ => 11
  | .loadNone _ => 3
  | .add _ _ _ => 4
  | .sub _ _ _ => 4
  | .mul _ _ _ => 4
  | .div _ _ _ => 4
  | .illegal _ => 1

/-- The bytes of an instruction in stream order (30_encoding.md R72 to R74, R76, R78, R79). LOAD of None takes the
canonical tag 0x0A (R86). -/
def encode : Instr → List Byte
  | .halt => [0x00]
  | .loadU8 rd imm => 0x01 :: rd :: 0x00 :: leBytes 1 imm.toNat
  | .loadI8 rd imm => 0x01 :: rd :: 0x01 :: leBytes 1 imm.toNat
  | .loadU16 rd imm => 0x01 :: rd :: 0x02 :: beBytes 2 imm.toNat
  | .loadI16 rd imm => 0x01 :: rd :: 0x03 :: beBytes 2 imm.toNat
  | .loadU32 rd imm => 0x01 :: rd :: 0x04 :: leBytes 4 imm.toNat
  | .loadI32 rd imm => 0x01 :: rd :: 0x05 :: leBytes 4 imm.toNat
  | .loadU64 rd imm => 0x01 :: rd :: 0x06 :: leBytes 8 imm.toNat
  | .loadI64 rd imm => 0x01 :: rd :: 0x07 :: leBytes 8 imm.toNat
  | .loadF32 rd imm => 0x01 :: rd :: 0x08 :: leBytes 4 imm.toNat
  | .loadF64 rd imm => 0x01 :: rd :: 0x09 :: leBytes 8 imm.toNat
  | .loadNone rd => [0x01, rd, 0x0A]
  | .add ra rb rd => [0x02, ra, rb, rd]
  | .sub ra rb rd => [0x03, ra, rb, rd]
  | .mul ra rb rd => [0x04, ra, rb, rd]
  | .div ra rb rd => [0x05, ra, rb, rd]
  | .illegal op => [op]

/-- The bytes of a table word: the low `nbits` bits of `w`, bit 0 the least significant bit of the first byte, with
zero bytes up to the longest instruction. -/
def tableBytes (nbits w : Nat) : List Byte := leBytes maxLength (w % 2 ^ nbits)

/-- The instruction the decoder reads from a table word. -/
def decodeTableWord (nbits w : Nat) : Option Instr :=
  match decode (tableBytes nbits w) with
  | .ok i => some i
  | .error _ => none

/-- The name of the row of spec/opcode_table.json an instruction belongs to (30_encoding.md R87). -/
def Instr.mnemonic : Instr → String
  | .halt => "HALT"
  | .loadU8 _ _ => "LOAD.U8"
  | .loadI8 _ _ => "LOAD.I8"
  | .loadU16 _ _ => "LOAD.U16"
  | .loadI16 _ _ => "LOAD.I16"
  | .loadU32 _ _ => "LOAD.U32"
  | .loadI32 _ _ => "LOAD.I32"
  | .loadU64 _ _ => "LOAD.U64"
  | .loadI64 _ _ => "LOAD.I64"
  | .loadF32 _ _ => "LOAD.F32"
  | .loadF64 _ _ => "LOAD.F64"
  | .loadNone _ => "LOAD.NONE"
  | .add _ _ _ => "ADD"
  | .sub _ _ _ => "SUB"
  | .mul _ _ _ => "MUL"
  | .div _ _ _ => "DIV"
  | .illegal _ => "ILLEGAL"

/-- A row of the opcode table: its mnemonic, and its alternatives, each a list of (match, mask) byte pairs in stream
order (30_encoding.md R87). -/
structure OpcodeRow where
  mnemonic : String
  alternatives : List (List (Byte × Byte))
deriving DecidableEq, Repr

/-- A byte string fits a pattern when `(b[i] AND mask[i]) = match[i]` for every byte the mask covers (R87). -/
def fitsPattern : List (Byte × Byte) → List Byte → Bool
  | [], _ => true
  | _ :: _, [] => false
  | (m, k) :: ps, b :: bs => decide (b &&& k = m) && fitsPattern ps bs

/-- A byte string selects a row when it fits one of its alternatives (R87). -/
def OpcodeRow.selects (r : OpcodeRow) (b : List Byte) : Bool := r.alternatives.any fun p => fitsPattern p b

/-- The row of a LOAD form: opcode 0x01, an untested register byte, then the tag under the given patterns. -/
def loadRow (mnemonic : String) (tags : List (Byte × Byte)) : OpcodeRow :=
  ⟨mnemonic, tags.map fun t => [(0x01, 0xFF), (0x00, 0x00), t]⟩

/-- spec/opcode_table.json, row for row: `match`, `mask` and `alternatives`. -/
def opcodeTable : List OpcodeRow :=
  [ ⟨"HALT", [[(0x00, 0xFF)]]⟩,
    loadRow "LOAD.U8" [(0x00, 0xFF)],
    loadRow "LOAD.I8" [(0x01, 0xFF)],
    loadRow "LOAD.U16" [(0x02, 0xFF)],
    loadRow "LOAD.I16" [(0x03, 0xFF)],
    loadRow "LOAD.U32" [(0x04, 0xFF)],
    loadRow "LOAD.I32" [(0x05, 0xFF)],
    loadRow "LOAD.U64" [(0x06, 0xFF)],
    loadRow "LOAD.I64" [(0x07, 0xFF)],
    loadRow "LOAD.F32" [(0x08, 0xFF)],
    loadRow "LOAD.F64" [(0x09, 0xFF)],
    loadRow "LOAD.NONE" [(0x0A, 0xFE), (0x0C, 0xFC), (0x10, 0xF0), (0x20, 0xE0), (0x40, 0xC0), (0x80, 0x80)],
    ⟨"ADD", [[(0x02, 0xFF)]]⟩,
    ⟨"SUB", [[(0x03, 0xFF)]]⟩,
    ⟨"MUL", [[(0x04, 0xFF)]]⟩,
    ⟨"DIV", [[(0x05, 0xFF)]]⟩,
    ⟨"ILLEGAL", [[(0x06, 0xFE)], [(0x08, 0xF8)], [(0x10, 0xF0)], [(0x20, 0xE0)], [(0x40, 0xC0)], [(0x80, 0x80)]]⟩ ]

/-- The mnemonics of the rows a byte string selects. -/
def rowsSelected (b : List Byte) : List String := (opcodeTable.filter fun r => r.selects b).map OpcodeRow.mnemonic

/-- `rN` of the assembly text (30_encoding.md R85). -/
def regText (r : Byte) : String := "r" ++ toString r.toNat

/-- The `n` low hexadecimal digits of `v`, upper case, as the assembly text writes a bit pattern. -/
def hexText : Nat → Nat → String
  | 0, _ => ""
  | n + 1, v => hexText n (v / 16) ++ String.singleton (Nat.digitChar (v % 16)).toUpper

/-- The assembly text of an instruction (30_encoding.md R85): integers in decimal, float payloads by bit pattern. -/
def Instr.text : Instr → String
  | .halt => "Halt"
  | .loadU8 rd imm => "Load(" ++ regText rd ++ ", U8(" ++ toString imm.toNat ++ "))"
  | .loadI8 rd imm => "Load(" ++ regText rd ++ ", I8(" ++ toString imm.toInt ++ "))"
  | .loadU16 rd imm => "Load(" ++ regText rd ++ ", U16(" ++ toString imm.toNat ++ "))"
  | .loadI16 rd imm => "Load(" ++ regText rd ++ ", I16(" ++ toString imm.toInt ++ "))"
  | .loadU32 rd imm => "Load(" ++ regText rd ++ ", U32(" ++ toString imm.toNat ++ "))"
  | .loadI32 rd imm => "Load(" ++ regText rd ++ ", I32(" ++ toString imm.toInt ++ "))"
  | .loadU64 rd imm => "Load(" ++ regText rd ++ ", U64(" ++ toString imm.toNat ++ "))"
  | .loadI64 rd imm => "Load(" ++ regText rd ++ ", I64(" ++ toString imm.toInt ++ "))"
  | .loadF32 rd imm => "Load(" ++ regText rd ++ ", F32(bits(0x" ++ hexText 8 imm.toNat ++ ")))"
  | .loadF64 rd imm => "Load(" ++ regText rd ++ ", F64(bits(0x" ++ hexText 16 imm.toNat ++ ")))"
  | .loadNone rd => "Load(" ++ regText rd ++ ", None)"
  | .add ra rb rd => "Add(" ++ regText ra ++ ", " ++ regText rb ++ ", " ++ regText rd ++ ")"
  | .sub ra rb rd => "Sub(" ++ regText ra ++ ", " ++ regText rb ++ ", " ++ regText rd ++ ")"
  | .mul ra rb rd => "Mul(" ++ regText ra ++ ", " ++ regText rb ++ ", " ++ regText rd ++ ")"
  | .div ra rb rd => "Div(" ++ regText ra ++ ", " ++ regText rb ++ ", " ++ regText rd ++ ")"
  | .illegal op => "Illegal(0x" ++ hexText 2 op.toNat ++ ")"

end Sys2Proof
end

