-- ==== Sys2Proof/Machine/Memory.lean ====
section
/-! DEFINITION. Named operations over the program byte space (20_memory.md R50 to R55). -/

namespace Sys2Proof.Machine

open Sys2Proof

/-- The cells of a byte sequence laid from offset `a` upwards. -/
def Memory.cellsFrom : Nat → List Byte → Memory
  | _, [] => []
  | a, b :: bs => (a, b) :: Memory.cellsFrom (a + 1) bs

/-- The memory of a program: its bytes at offsets 0, 1, 2, … (20_memory.md R51, R61). -/
def Memory.ofBytes (bs : List Byte) : Memory := Memory.cellsFrom 0 bs

/-- The byte sequence a memory lists, in order. -/
def Memory.bytes (m : Memory) : List Byte := m.map Prod.snd

/-- The canonical form: the listed offsets are 0, 1, 2, … in order, so they rise strictly, no offset is skipped and
equal programs are equal data. -/
def Memory.wf (m : Memory) : Bool := decide (m = Memory.ofBytes m.bytes)

/-- `prog[a]`, nothing at an unlisted offset (20_memory.md R51, R53). -/
def Memory.read : Memory → Nat → Option Byte
  | [], _ => none
  | (o, b) :: m, a => if o = a then some b else Memory.read m a

/-- The bytes from offset `a` upwards, up to `n` of them, ending where the program ends (20_memory.md R52). -/
def Memory.window (m : Memory) : Nat → Nat → List Byte
  | _, 0 => []
  | a, n + 1 =>
    match m.read a with
    | none => []
    | some b => b :: Memory.window m (a + 1) n

/-- The memory with the bytes `bs` at offset `a`, zero bytes filling any gap below `a`, and the bytes past them as they
were. No instruction does this (R55): it stands for the host's installing a program. -/
def Memory.place (m : Memory) (a : Nat) (bs : List Byte) : Memory :=
  Memory.ofBytes ((m.bytes ++ List.replicate (a - m.length) 0).take a ++ bs ++ m.bytes.drop (a + bs.length))

end Sys2Proof.Machine
end

