-- ==== Sys2Proof/Machine/Fetch.lean ====
section
/-! DEFINITION. What a step does before it executes an instruction (40_cycle_and_host.md R100 to R104), and how a given
instruction is laid where the step fetches. -/

namespace Sys2Proof.Machine

open Sys2Proof

/-- The outcome of the checks and the decode of a step: the step ends in a state, or an instruction executes. -/
inductive Fetched
  | ended (t : State)
  | runs (i : Instr)
deriving DecidableEq, Repr

/-- The checks of a step in order, then the decode at `pc` (40_cycle_and_host.md R100 to R104, 60_exceptions.md R227
items 1 to 4). Stopped: nothing changes (R101). An empty program: EMPTY_PROGRAM at offset 0 (R102). At or past the
last byte: END_OF_PROGRAM at `pc` (R103). Bytes missing: DECODE_OUT_OF_BOUNDS at `pc`, `pc` left there (R104). -/
def fetch (s : State) : Fetched :=
  if s.runState = .stopped then .ended s
  else if s.prog.length = 0 then .ended (raiseFault .emptyProgram 0 s)
  else if s.prog.length - 1 ≤ s.pc then .ended (stopBenign .endOfProgram s.pc s)
  else
    match decode (s.prog.window s.pc maxLength) with
    | .error _ => .ended (raiseFault .decodeOutOfBounds s.pc s)
    | .ok i => .runs i

/-- The state with the bytes of a table word placed at `pc`, a zero byte after them, and a Stopped engine restarted
where it stands, so that the next step decodes those bytes (log entry 9). The zero byte is needed because the last byte
of a program is never decoded as an opcode (40_cycle_and_host.md R111). -/
def placeWord (nbits w : Nat) (s : State) : State :=
  if s.runState = .stopped then restart s.pc (s.prog.place s.pc (tableBytes nbits w ++ [0])) s
  else { s with prog := s.prog.place s.pc (tableBytes nbits w ++ [0]) }

end Sys2Proof.Machine
end

