-- ==== Sys2Proof/Machine/Step.lean ====
section
/-! DEFINITION. One step of the engine (40_cycle_and_host.md R100). -/

namespace Sys2Proof.Machine

open Sys2Proof

/-- `Step()` (40_cycle_and_host.md R100). The Boolean it returns is read from the next state: it is true exactly when
that state is Stopped (log entry 2). -/
def step (s : State) : Host.Outcome State Fault Refusal :=
  match fetch s with
  | .ended t => .next t
  | .runs i => exec i s

/-- The state with a given instruction where the next step fetches it (log entry 9). -/
def State.withFetchWord (s : State) (nbits w : Nat) : State := placeWord nbits w s

end Sys2Proof.Machine
end

