-- ==== Sys2Proof/Machine/HostOps.lean ====
section
/-! DEFINITION. The host interface (40_cycle_and_host.md R112 to R132): the run driver, the host's view of a register,
and the nine operations. -/

namespace Sys2Proof.Machine

open Sys2Proof

/-- The boolean "should stop" of a step that ended in `s` (40_cycle_and_host.md R100, log entry 2). -/
def shouldStop (s : State) : Bool := decide (s.runState = .stopped)

/-- `repeat Step() until it returns true`, at most `k` times (40_cycle_and_host.md R112). -/
def runSteps : Nat → State → Host.Outcome State Fault Refusal
  | 0, s => .next s
  | k + 1, s =>
    match step s with
    | .next t => if shouldStop t then .next t else runSteps k t
    | .fault r => .fault r
    | .refused r => .refused r

/-- `Run()` (40_cycle_and_host.md R112). Each step that does not stop moves `pc` up, and a step at the end stops, so one
step more than the program's length is always enough (R113, log entry 10). -/
def run (s : State) : Host.Outcome State Fault Refusal := runSteps (s.prog.length + 1) s

/-- The host's (KIND, PAYLOAD) pair of a value (10_state.md R31, R32). -/
def Value.toHost : Value → BitVec 4 × BitVec 64
  | .none => (15, 0)
  | .u8 n => (0, n.setWidth 64)
  | .i8 n => (1, n.setWidth 64)
  | .u16 n => (2, n.setWidth 64)
  | .i16 n => (3, n.setWidth 64)
  | .u32 n => (4, n.setWidth 64)
  | .i32 n => (5, n.setWidth 64)
  | .u64 n => (6, n)
  | .i64 n => (7, n)
  | .f32 b => (8, b.setWidth 64)
  | .f64 b => (9, b)

/-- The value a (KIND, PAYLOAD) pair writes: payload bits above the kind's width are ignored (10_state.md R31), and the
codes 10 to 14 name no kind (R32). -/
def Value.ofHost (kind : BitVec 4) (payload : BitVec 64) : Option Value :=
  match kind.toNat with
  | 0 => some (.u8 (payload.setWidth 8))
  | 1 => some (.i8 (payload.setWidth 8))
  | 2 => some (.u16 (payload.setWidth 16))
  | 3 => some (.i16 (payload.setWidth 16))
  | 4 => some (.u32 (payload.setWidth 32))
  | 5 => some (.i32 (payload.setWidth 32))
  | 6 => some (.u64 payload)
  | 7 => some (.i64 payload)
  | 8 => some (.f32 (payload.setWidth 32))
  | 9 => some (.f64 payload)
  | 15 => some .none
  | _ => Option.none

/-- The host operations and their arguments (40_cycle_and_host.md R120). -/
inductive HostOp
  | reset
  | setProg (b : List Byte)
  | step
  | run
  | readPc
  | readReg (i : Nat)
  | writeReg (i : Nat) (kind : BitVec 4) (payload : BitVec 64)
  | readStatus
  | readDiag
deriving DecidableEq, Repr

/-- What a host operation returns (40_cycle_and_host.md R120, R132). -/
inductive HostReply
  /-- Nothing. -/
  | done
  /-- The stop flag of STEP and RUN. -/
  | flag (stop : Bool)
  | pc (off : Nat)
  | reg (kind : BitVec 4) (payload : BitVec 64)
  /-- The codes of `RUN_STATE` and `STOP_CAUSE`, and `STOP_ADDR`. -/
  | status (run : BitVec 2) (cause : BitVec 4) (addr : Nat)
  | diag (events : List DiagEvent)
  /-- HOST_ERROR: the operation is refused and no state changes (R132). -/
  | error
deriving DecidableEq, Repr

/-- RESET (40_cycle_and_host.md R130): every piece of the spec's state at its reset value. The model's own draw counter
goes on, so that draws stay fresh (log entry 5). -/
def hostReset (s : State) : State := { State.reset with nanDraws := s.nanDraws }

/-- SETPROG (R121, R122): refused while Running and for a program longer than `LEN_MAX` (R132). -/
def hostSetProg (b : List Byte) (s : State) : State × HostReply :=
  if s.runState = .running ∨ Config.lenMax < b.length then (s, .error)
  else (restart 0 (Memory.ofBytes b) s, .done)

/-- READREG (R124): refused for an index of 32 or more (R132). -/
def hostReadReg (i : Nat) (s : State) : State × HostReply :=
  match readReg i s with
  | some v => (s, .reg v.toHost.1 v.toHost.2)
  | Option.none => (s, .error)

/-- WRITEREG (R125): refused for an index of 32 or more and for a KIND code that names no kind (R132). -/
def hostWriteReg (i : Nat) (kind : BitVec 4) (payload : BitVec 64) (s : State) : State × HostReply :=
  match Value.ofHost kind payload with
  | Option.none => (s, .error)
  | some v =>
    match writeReg i v s with
    | some t => (t, .done)
    | Option.none => (s, .error)

/-- The reply of an operation that ran the engine: its stop flag (R126, R127). -/
def withFlag : Host.Outcome State Fault Refusal → Host.Outcome (State × HostReply) Fault Refusal
  | .next t => .next (t, .flag (shouldStop t))
  | .fault r => .fault r
  | .refused r => .refused r

/-- A host operation (40_cycle_and_host.md R120): the state after it and what it returns. -/
def hostOp (o : HostOp) (s : State) : Host.Outcome (State × HostReply) Fault Refusal :=
  match o with
  | .reset => .next (hostReset s, .done)
  | .setProg b => .next (hostSetProg b s)
  | .step => withFlag (step s)
  | .run => withFlag (run s)
  | .readPc => .next (s, .pc s.pc)
  | .readReg i => .next (hostReadReg i s)
  | .writeReg i kind payload => .next (hostWriteReg i kind payload s)
  | .readStatus => .next (s, .status s.runState.code s.stopCause.code s.stopAddr)
  | .readDiag => .next (s, .diag s.diag)

end Sys2Proof.Machine
end

