-- ==== Sys2Proof/Safety.lean ====
section
/-! DEFINITION. The terms claims about the engine are stated in: the invariant of the engine state, fault-free states,
the states a host can bring the engine to, and the number a bit pattern stands for. -/

namespace Sys2Proof

/-- The instruction of an arithmetic operation (43_arith.md R172 to R175). -/
def ArithOp.instr (op : ArithOp) (ra rb rd : Byte) : Instr :=
  match op with
  | .add => .add ra rb rd
  | .sub => .sub ra rb rd
  | .mul => .mul ra rb rd
  | .div => .div ra rb rd

/-- What a kind mismatch of an operation is recorded as (43_arith.md R172 to R175, 60_exceptions.md R221). -/
def ArithOp.mismatchCause (op : ArithOp) : Machine.StopCause :=
  match op with
  | .add => .addSubTypeMismatch
  | .sub => .addSubTypeMismatch
  | .mul => .mulDivTypeMismatch
  | .div => .mulDivTypeMismatch

/-- The destination index and the value of a LOAD (42_load.md R151 to R161); nothing for another instruction. -/
def Instr.loaded : Instr → Option (Byte × Machine.Value)
  | .loadU8 rd imm => some (rd, .u8 imm)
  | .loadI8 rd imm => some (rd, .i8 imm)
  | .loadU16 rd imm => some (rd, .u16 imm)
  | .loadI16 rd imm => some (rd, .i16 imm)
  | .loadU32 rd imm => some (rd, .u32 imm)
  | .loadI32 rd imm => some (rd, .i32 imm)
  | .loadU64 rd imm => some (rd, .u64 imm)
  | .loadI64 rd imm => some (rd, .i64 imm)
  | .loadF32 rd imm => some (rd, .f32 imm)
  | .loadF64 rd imm => some (rd, .f64 imm)
  | .loadNone rd => some (rd, .none)
  | .halt => none
  | .add _ _ _ => none
  | .sub _ _ _ => none
  | .mul _ _ _ => none
  | .div _ _ _ => none
  | .illegal _ => none

/-- The register an instruction writes when it completes: the destination of a LOAD, ADD, SUB, MUL or DIV
(40_cycle_and_host.md R108, 10_state.md R27). HALT and ILLEGAL have none. -/
def Instr.hasDest (i : Instr) (rd : Byte) : Prop :=
  (∃ v, i.loaded = some (rd, v)) ∨ ∃ op ra rb, i = ArithOp.instr op ra rb rd

end Sys2Proof

namespace Sys2Proof.Machine

open Sys2Proof

/-- What holds of the engine between steps. -/
structure State.Inv (s : State) : Prop where
  /-- The program is in canonical form (10_state.md R36, log entry 6). -/
  progWf : s.prog.wf = true
  /-- `0 <= pc <= len(prog)` (40_cycle_and_host.md R110). -/
  pcLe : s.pc ≤ s.prog.length
  /-- STOP_CAUSE is NONE exactly when RUN_STATE is not Stopped (10_state.md R40). -/
  causeIff : s.stopCause = .none ↔ s.runState ≠ .stopped
  /-- STOP_ADDR is 0 unless the engine is Stopped (10_state.md R41). -/
  addrZero : s.runState ≠ .stopped → s.stopAddr = 0
  /-- STOP_ADDR is an offset the engine reached (10_state.md R41). -/
  addrLe : s.stopAddr ≤ s.pc
  /-- Ready is the state of a program that has not begun (10_state.md R38, R39). -/
  readyPc : s.runState = .ready → s.pc = 0

/-- No fatal cause is recorded (60_exceptions.md R222, R226). -/
def State.faultFree (s : State) : Bool := !s.stopCause.isFatal

/-- The states that host operations, steps among them, bring the engine to from reset (40_cycle_and_host.md R120). -/
inductive Reachable : State → Prop
  | reset : Reachable State.reset
  | host (s t : State) (o : HostOp) (r : HostReply) : Reachable s → hostOp o s = .next (t, r) → Reachable t

/-- The state after an instruction at `s.pc` that completes by writing register `i` (40_cycle_and_host.md R105, R107):
everything else is as before. -/
def State.completed (s : State) (n i : Nat) (h : i < 32) (v : Value) : State :=
  { s with regs := s.regs.set i v h, pc := s.pc + n, runState := .running }

/-- The state after an instruction at `s.pc` that stops or faults silently (60_exceptions.md R224, R225): `pc` is past
the instruction, the opcode offset is recorded, and everything else is as before. -/
def State.ended (s : State) (n : Nat) (c : StopCause) : State :=
  { s with pc := s.pc + n, runState := .stopped, stopCause := c, stopAddr := s.pc }

/-- The payload width in bits of a host-view KIND code (10_state.md R31, R32); nothing for the codes 10 to 14. -/
def hostKindBits (kind : BitVec 4) : Option Nat :=
  match kind.toNat with
  | 0 => some 8
  | 1 => some 8
  | 2 => some 16
  | 3 => some 16
  | 4 => some 32
  | 5 => some 32
  | 6 => some 64
  | 7 => some 64
  | 8 => some 32
  | 9 => some 64
  | 15 => some 0
  | _ => none

/-- The refusals of 40_cycle_and_host.md R132, and no other. -/
def HostOp.refusedIn (o : HostOp) (s : State) : Prop :=
  match o with
  | .setProg b => s.runState = .running ∨ Config.lenMax < b.length
  | .readReg i => 32 ≤ i
  | .writeReg i kind _ => 32 ≤ i ∨ (10 ≤ kind.toNat ∧ kind.toNat ≤ 14)
  | .reset => False
  | .step => False
  | .run => False
  | .readPc => False
  | .readStatus => False
  | .readDiag => False

/-- The rational number a finite datum is. -/
def Datum.toRat : Datum → Option ℚ
  | .nan => none
  | .inf _ => none
  | .finite neg m e => some ((if neg then -1 else 1) * (m : ℚ) * 2 ^ e)

/-- Where rounding to nearest first overflows: half a unit past the greatest finite number. -/
def FloatFormat.overflowAt (f : FloatFormat) : ℚ :=
  ((2 : ℚ) ^ (f.fracBits + 2) - 1) * 2 ^ (f.minExp + (f.topExp : ℤ) - 3)

/-- The exact rational result of an operation. -/
def exactRat : ArithOp → ℚ → ℚ → ℚ
  | .add, x, y => x + y
  | .sub, x, y => x - y
  | .mul, x, y => x * y
  | .div, x, y => x / y

/-- The pattern `b` is `r` correctly rounded in roundTiesToEven (00_scope.md R18, 43_arith.md R180): from half a unit
past the greatest finite number on, the infinity of `r`'s sign; below it, a representable number that none is nearer
to `r` than, whose last bit is 0 where another is as near. -/
def FloatFormat.IsRounded (f : FloatFormat) (r : ℚ) (b : Nat) : Prop :=
  (f.overflowAt ≤ |r| → f.unpack b = .inf (decide (r < 0))) ∧
    (|r| < f.overflowAt →
      ∃ B, (f.unpack b).toRat = some B ∧
        ∀ (z : Nat) (Z : ℚ), (f.unpack z).toRat = some Z → |B - r| ≤ |Z - r| ∧ (|B - r| = |Z - r| → Z = B ∨ b % 2 = 0))

end Sys2Proof.Machine
end

