-- ==== Sys2Proof/Certificates/Slice0/Obligations.lean ====
section
/-! DEFINITION. The statements about the model, one `def Obligations.<Name> : Prop` each. -/

open Sys2Proof Sys2Proof.Machine

/-! ## Reset and the invariant of the state -/

/-- 10_state.md R30, R35: after reset every register holds `U8(0)` and the program counter is 0. -/
def Obligations.ResetRegistersAndCounter : Prop :=
  (∀ i, i < 32 → readReg i State.reset = some (.u8 0)) ∧ State.reset.pc = 0

/-- The host's RESET puts every piece of the spec's state at its reset value, from any state (40_cycle_and_host.md
section 3, 70_reset_and_hazards.md section 1). The empty program is the spec's decision D26. The model's own draw
counter is not spoken of (log entry 5). -/
def Obligations.HostResetRestoresEveryResetValue : Prop :=
  ∀ s : State, ∃ t, hostOp .reset s = .next (t, .done) ∧ (∀ i, i < 32 → readReg i t = some (.u8 0)) ∧ t.pc = 0 ∧
    t.prog = [] ∧ t.runState = .ready ∧ t.stopCause = .none ∧ t.stopAddr = 0 ∧ t.diag = []

/-- The invariant holds right after reset. -/
def Obligations.ResetStateMeetsInvariant : Prop := State.Inv State.reset

/-- The invariant (canonical program, `pc` within the program, the stop registers in step with RUN_STATE) is kept by
every step from every state that meets it (40_cycle_and_host.md R110, 10_state.md R38 to R41). -/
def Obligations.StepKeepsInvariant : Prop :=
  ∀ s t : State, s.Inv → step s = .next t → t.Inv

/-- Every host operation keeps the invariant, SETPROG and RUN among them. -/
def Obligations.HostOperationKeepsInvariant : Prop :=
  ∀ (o : HostOp) (s t : State) (r : HostReply), s.Inv → hostOp o s = .next (t, r) → t.Inv

/-- Every state the host can bring the engine to meets the invariant, its program is no longer than LEN_MAX, and its
program counter fits W_PC bits, so the counter never wraps (40_cycle_and_host.md R110, 00_scope.md R12). -/
def Obligations.ReachableStatesAreBounded : Prop :=
  ∀ s : State, Reachable s → s.Inv ∧ s.prog.length ≤ Config.lenMax ∧ s.pc < 2 ^ Config.wPc

/-! ## Encoding -/

/-- Decoding the encoding of any well-formed instruction gives it back, whatever bytes follow. -/
def Obligations.DecodeOfEncodeIsIdentity : Prop :=
  ∀ (i : Instr) (rest : List Byte), i.wf = true → decode (encode i ++ rest) = .ok i

/-- The other direction: what decodes is well formed, and the bytes it was read from are its encoding, but for the tag
byte of a LOAD of None, which is any of 0x0A to 0xFF. -/
def Obligations.DecodedBytesAreTheEncoding : Prop :=
  ∀ (bs : List Byte) (i : Instr), decode bs = .ok i →
    i.wf = true ∧ i.length ≤ bs.length ∧
      (bs.take i.length = encode i ∨
        ∃ rd tag : Byte, i = .loadNone rd ∧ 10 ≤ tag.toNat ∧ bs.take i.length = [0x01, rd, tag])

/-- Decoding is total (30_encoding.md section 3): a byte sequence fails to decode exactly when it ends before the
instruction that its opcode and, for a LOAD, its tag announce. -/
def Obligations.DecodeFailsOnlyWhenTruncated : Prop :=
  decode [] = .error .outOfBounds ∧
    ∀ (op : Byte) (rest : List Byte),
      (decode (op :: rest) = .error .outOfBounds ↔
        (op = 0x01 ∧ (rest.length < 2 ∨ ∃ rd tag p, rest = rd :: tag :: p ∧ p.length < payloadWidth tag)) ∨
          (2 ≤ op.toNat ∧ op.toNat ≤ 5 ∧ rest.length < 3)) ∧
      (decode (op :: rest) ≠ .error .outOfBounds → ∃ i, decode (op :: rest) = .ok i)

/-- 30_encoding.md R73: format R3 is four bytes, opcode, first source, second source, destination. -/
def Obligations.FormatR3DecodesInByteOrder : Prop :=
  ∀ (ra rb rd : Byte) (rest : List Byte),
    decode (0x02 :: ra :: rb :: rd :: rest) = .ok (.add ra rb rd) ∧
    decode (0x03 :: ra :: rb :: rd :: rest) = .ok (.sub ra rb rd) ∧
    decode (0x04 :: ra :: rb :: rd :: rest) = .ok (.mul ra rb rd) ∧
    decode (0x05 :: ra :: rb :: rd :: rest) = .ok (.div ra rb rd) ∧
    (Instr.add ra rb rd).length = 4 ∧ (Instr.sub ra rb rd).length = 4 ∧ (Instr.mul ra rb rd).length = 4 ∧
    (Instr.div ra rb rd).length = 4

/-- 30_encoding.md R76; 20_memory.md R56: each type tag selects its kind and payload width, 16-bit payloads come
high byte first and wider ones low byte first, and every tag 0x0A to 0xFF is None with no payload. -/
def Obligations.TypeTagMapDecodes : Prop :=
  ∀ (rd p0 p1 p2 p3 p4 p5 p6 p7 : Byte) (rest : List Byte),
    decode (0x01 :: rd :: 0x00 :: p0 :: rest) = .ok (.loadU8 rd p0) ∧
    decode (0x01 :: rd :: 0x01 :: p0 :: rest) = .ok (.loadI8 rd p0) ∧
    decode (0x01 :: rd :: 0x02 :: p0 :: p1 :: rest) = .ok (.loadU16 rd (p0 ++ p1)) ∧
    decode (0x01 :: rd :: 0x03 :: p0 :: p1 :: rest) = .ok (.loadI16 rd (p0 ++ p1)) ∧
    decode (0x01 :: rd :: 0x04 :: p0 :: p1 :: p2 :: p3 :: rest) = .ok (.loadU32 rd (p3 ++ p2 ++ p1 ++ p0)) ∧
    decode (0x01 :: rd :: 0x05 :: p0 :: p1 :: p2 :: p3 :: rest) = .ok (.loadI32 rd (p3 ++ p2 ++ p1 ++ p0)) ∧
    decode (0x01 :: rd :: 0x06 :: p0 :: p1 :: p2 :: p3 :: p4 :: p5 :: p6 :: p7 :: rest) =
      .ok (.loadU64 rd (p7 ++ p6 ++ p5 ++ p4 ++ p3 ++ p2 ++ p1 ++ p0)) ∧
    decode (0x01 :: rd :: 0x07 :: p0 :: p1 :: p2 :: p3 :: p4 :: p5 :: p6 :: p7 :: rest) =
      .ok (.loadI64 rd (p7 ++ p6 ++ p5 ++ p4 ++ p3 ++ p2 ++ p1 ++ p0)) ∧
    decode (0x01 :: rd :: 0x08 :: p0 :: p1 :: p2 :: p3 :: rest) = .ok (.loadF32 rd (p3 ++ p2 ++ p1 ++ p0)) ∧
    decode (0x01 :: rd :: 0x09 :: p0 :: p1 :: p2 :: p3 :: p4 :: p5 :: p6 :: p7 :: rest) =
      .ok (.loadF64 rd (p7 ++ p6 ++ p5 ++ p4 ++ p3 ++ p2 ++ p1 ++ p0)) ∧
    ∀ tag : Byte, 0x0A ≤ tag.toNat →
      decode (0x01 :: rd :: tag :: rest) = .ok (.loadNone rd) ∧ payloadWidth tag = 0 ∧ (Instr.loadNone rd).length = 3

/-- Every opcode byte 0x06 to 0xFF decodes as ILLEGAL, consumes one byte and stops with a notice (30_encoding.md
section 3). That the notice carries the opcode offset is the spec's decision D22 (log entry 20). -/
def Obligations.IllegalSpaceDecodesAndStops : Prop :=
  ∀ (op : Byte) (rest : List Byte) (s : State), 0x06 ≤ op.toNat →
    decode (op :: rest) = .ok (.illegal op) ∧ (Instr.illegal op).length = 1 ∧
      ∃ t, exec (.illegal op) s = .next t ∧ t.pc = s.pc + 1 ∧ t.runState = .stopped ∧
        t.diag = s.diag ++ [⟨.illegalNotice, s.pc⟩]

/-- Bytes that decode select exactly one row of the opcode table, the row of the instruction they
decode to (30_encoding.md section 4). -/
def Obligations.OpcodeTableSelectsTheDecodedRow : Prop :=
  ∀ (bs : List Byte) (i : Instr), decode bs = .ok i → rowsSelected bs = [i.mnemonic]

/-- Byte strings written out from the encodings of 30_encoding.md and 42_load.md decode to the instructions they stand
for. -/
def Obligations.WrittenOutWordsDecode : Prop :=
  decode [0x00, 0x00] = .ok .halt ∧
    decode [0x01, 0x00, 0x05, 0xF8, 0xFF, 0xFF, 0xFF] = .ok (.loadI32 0 (BitVec.ofInt 32 (-8))) ∧
    decode [0x01, 0x00, 0x02, 0x12, 0x34] = .ok (.loadU16 0 4660) ∧
    decode [0x01, 0x05, 0xFF] = .ok (.loadNone 5) ∧
    decode [0x05, 0x03, 0x04, 0x05] = .ok (.div 3 4 5) ∧
    decode [0x80] = .ok (.illegal 0x80)

/-! ## The step -/

/-- When the engine is not Stopped and the bytes at `pc`, at least two of them, decode to an instruction, the step is
that instruction's execution (40_cycle_and_host.md section 1). Nothing stands around it: `exec` itself moves `pc` past
the instruction (log entry 7). -/
def Obligations.StepRunsTheDecodedInstruction : Prop :=
  ∀ (s : State) (i : Instr), s.runState ≠ .stopped → s.prog.wf = true → s.pc + 2 ≤ s.prog.length →
    decode (s.prog.bytes.drop s.pc) = .ok i → step s = exec i s

/-- A step with an empty program faults with EMPTY_PROGRAM at offset 0 and leaves `pc` (the spec's decision D4). -/
def Obligations.EmptyProgramStepFaults : Prop :=
  ∀ s : State, s.runState ≠ .stopped → s.prog.length = 0 →
    step s = .next { s with runState := .stopped, stopCause := .emptyProgram, stopAddr := 0 }

/-- 40_cycle_and_host.md R103: at or past the last byte the step stops with END_OF_PROGRAM at `pc` without decoding;
`pc`, the registers and the diagnostics are as before. -/
def Obligations.EndOfProgramStopsWithoutDecoding : Prop :=
  ∀ s : State, s.runState ≠ .stopped → 1 ≤ s.prog.length → s.prog.length - 1 ≤ s.pc →
    step s = .next { s with runState := .stopped, stopCause := .endOfProgram, stopAddr := s.pc }

/-- An instruction whose bytes run past the program faults with DECODE_OUT_OF_BOUNDS; `pc` stays at its opcode, which
is recorded (20_memory.md R53; `pc` and STOP_ADDR by the spec's decisions D7 and D8). -/
def Obligations.TruncatedInstructionFaults : Prop :=
  ∀ (s : State) (e : DecodeError), s.runState ≠ .stopped → s.prog.wf = true → s.pc + 2 ≤ s.prog.length →
    decode (s.prog.bytes.drop s.pc) = .error e →
    step s = .next { s with runState := .stopped, stopCause := .decodeOutOfBounds, stopAddr := s.pc }

/-- Every step answers a next state, never a fault or a refusal of the model; a Stopped engine stays as it is, and any
other engine becomes Running or Stopped (10_state.md R38, R39). -/
def Obligations.EveryStepAnswersNext : Prop :=
  ∀ s : State, ∃ t, step s = .next t ∧ (s.runState = .stopped → t = s) ∧
    (s.runState ≠ .stopped → t.runState = .running ∨ t.runState = .stopped)

/-- A completed instruction leaves the engine Running, only LOAD, ADD, SUB, MUL and DIV can complete, and HALT and
ILLEGAL always stop (40_cycle_and_host.md section 1). The step's "should stop" is false exactly when it left the engine
not Stopped: that reading of the Boolean is the model's (log entry 2). -/
def Obligations.OnlyLoadAndArithmeticComplete : Prop :=
  ∀ (i : Instr) (s t : State), exec i s = .next t →
    (t.runState = .running ∨ t.runState = .stopped) ∧
      (shouldStop t = false ↔ t.runState = .running) ∧
      (t.runState = .running → i.loaded ≠ none ∨ ∃ op ra rb rd, i = ArithOp.instr op ra rb rd) ∧
      (i = .halt ∨ (∃ op, i = .illegal op) → t.runState = .stopped)

/-- 40_cycle_and_host.md R105: when the decode at `pc` succeeds, whatever the execution does, the step (and the
instruction's own execution) leaves `pc` past every byte of the instruction: `a + 1` for
HALT and ILLEGAL, `a + 4` for ADD, SUB, MUL and DIV, and for a LOAD past its opcode, its register byte, its tag and its
payload. -/
def Obligations.CounterAdvancesByTheInstruction : Prop :=
  ∀ (i : Instr) (s t : State),
    (s.runState ≠ .stopped → s.prog.wf = true → s.pc + 2 ≤ s.prog.length → decode (s.prog.bytes.drop s.pc) = .ok i →
      step s = .next t → t.pc = s.pc + (encode i).length) ∧
    (exec i s = .next t →
      t.pc = s.pc + (encode i).length ∧
        (i = .halt ∨ (∃ op, i = .illegal op) → t.pc = s.pc + 1) ∧
        (∀ op ra rb rd, i = ArithOp.instr op ra rb rd → t.pc = s.pc + 4) ∧
        (∀ rd tag p, i = loadOf rd tag p → t.pc = s.pc + 3 + payloadWidth tag))

/-- 20_memory.md R55: no instruction writes the program buffer, and there is no other memory. -/
def Obligations.InstructionsNeverWriteTheProgram : Prop :=
  ∀ (i : Instr) (s t : State), exec i s = .next t →
    t.prog = s.prog ∧ ∀ a, t.prog.read a = s.prog.read a

/-- A step writes no register, or it writes one: the destination of the LOAD, ADD, SUB, MUL or DIV decoded at `pc`,
which then completes (40_cycle_and_host.md section 1, 10_state.md section 2). -/
def Obligations.StepWritesAtMostOneRegister : Prop :=
  ∀ s t : State, step s = .next t →
    t.regs = s.regs ∨
      ∃ (i : Instr) (rd : Byte), s.runState ≠ .stopped ∧ decode (s.prog.window s.pc maxLength) = .ok i ∧
        i.hasDest rd ∧ rd.toNat < 32 ∧ t.runState = .running ∧ ∀ j, j ≠ rd.toNat → readReg j t = readReg j s

/-- A step that stops or faults writes no register and no program byte (40_cycle_and_host.md section 1,
60_exceptions.md section 4), and it takes no NaN draw: the draw counter is the model's own field (log entry 5). -/
def Obligations.StoppingStepWritesNoRegister : Prop :=
  ∀ s t : State, step s = .next t → t.runState = .stopped → t.regs = s.regs ∧ t.prog = s.prog ∧ t.nanDraws = s.nanDraws

/-- Of all steps only a HALT and an ILLEGAL emit a notice, one each, with their own opcode offset
(41_halt_illegal.md R142, the spec's decision D22). -/
def Obligations.OnlyHaltAndIllegalEmitNotices : Prop :=
  ∀ s t : State, step s = .next t →
    t.diag = s.diag ∨
      (s.prog.read s.pc = some 0x00 ∧ t.stopCause = .halted ∧ t.diag = s.diag ++ [⟨.haltNotice, s.pc⟩]) ∨
      ((∃ op, s.prog.read s.pc = some op ∧ 0x06 ≤ op.toNat) ∧ t.stopCause = .illegalOpcode ∧
        t.diag = s.diag ++ [⟨.illegalNotice, s.pc⟩])

/-- No instruction observes RUN_STATE, STOP_CAUSE, STOP_ADDR, DIAG, `pc` or the program as data: the registers it
leaves, and whether and why it stops, are the same whatever those are (10_state.md section 6). That it takes the same
number of NaN draws is about the model's own field (log entry 5). -/
def Obligations.InstructionsDoNotObserveStatus : Prop :=
  ∀ (i : Instr) (s : State) (pc : Nat) (prog : Memory) (run : RunState) (cause : StopCause) (addr : Nat)
    (diag : List DiagEvent) (t u : State), exec i s = .next t →
    exec i { s with pc := pc, prog := prog, runState := run, stopCause := cause, stopAddr := addr, diag := diag } =
      .next u →
    u.regs = t.regs ∧ u.runState = t.runState ∧ (t.runState = .stopped → u.stopCause = t.stopCause) ∧
      u.nanDraws = t.nanDraws

/-! ## HALT, ILLEGAL and LOAD -/

/-- HALT emits its notice and stops benignly with HALTED, ILLEGAL emits its own and stops benignly with ILLEGAL_OPCODE;
no register, no program byte and nothing else changes (41_halt_illegal.md; STOP_ADDR and the event are the spec's
decisions D7 and D22). -/
def Obligations.HaltAndIllegalStopWithNotice : Prop :=
  ∀ (op : Byte) (s : State),
    exec .halt s = .next
      { s with pc := s.pc + 1, runState := .stopped, stopCause := .halted, stopAddr := s.pc,
               diag := s.diag ++ [⟨.haltNotice, s.pc⟩] } ∧
    exec (.illegal op) s = .next
      { s with pc := s.pc + 1, runState := .stopped, stopCause := .illegalOpcode, stopAddr := s.pc,
               diag := s.diag ++ [⟨.illegalNotice, s.pc⟩] } ∧
    StopCause.isFatal .halted = false ∧ StopCause.isFatal .illegalOpcode = false

/-- Each of the eleven LOAD forms completes when its destination index is below 32, and writes its typed immediate to
that register, kind and payload; nothing else changes but `pc` and RUN_STATE. -/
def Obligations.LoadWritesItsTypedImmediate : Prop :=
  ∀ (i : Instr) (rd : Byte) (v : Value) (s : State), i.loaded = some (rd, v) → ∀ h : rd.toNat < 32,
    exec i s = .next (s.completed i.length rd.toNat h v)

/-- Each of the eleven LOAD forms faults with INDEX_OUT_OF_RANGE when its destination index is 32 or more, and writes
nothing (`pc` after the fault is the spec's decision D8). -/
def Obligations.LoadIndexOutOfRangeFaults : Prop :=
  ∀ (i : Instr) (rd : Byte) (v : Value) (s : State), i.loaded = some (rd, v) → 32 ≤ rd.toNat →
    exec i s = .next (s.ended i.length .indexOutOfRange)

/-- From the bytes of the program to the register: a step over a LOAD of an 8-bit kind, of a 16-bit kind, the payload
high byte first, or of None: any tag 0x0A to 0xFF, a 3-byte LOAD that writes None (30_encoding.md R77). -/
def Obligations.StepLoadsNarrowPayloads : Prop :=
  ∀ (s : State) (rd p0 p1 tag : Byte) (rest : List Byte) (h : rd.toNat < 32), s.runState ≠ .stopped →
    s.prog.wf = true →
    (s.prog.bytes.drop s.pc = 0x01 :: rd :: 0x00 :: p0 :: rest →
      step s = .next (s.completed 4 rd.toNat h (.u8 p0))) ∧
    (s.prog.bytes.drop s.pc = 0x01 :: rd :: 0x01 :: p0 :: rest →
      step s = .next (s.completed 4 rd.toNat h (.i8 p0))) ∧
    (s.prog.bytes.drop s.pc = 0x01 :: rd :: 0x02 :: p0 :: p1 :: rest →
      step s = .next (s.completed 5 rd.toNat h (.u16 (p0 ++ p1)))) ∧
    (s.prog.bytes.drop s.pc = 0x01 :: rd :: 0x03 :: p0 :: p1 :: rest →
      step s = .next (s.completed 5 rd.toNat h (.i16 (p0 ++ p1)))) ∧
    (s.prog.bytes.drop s.pc = 0x01 :: rd :: tag :: rest → 0x0A ≤ tag.toNat →
      step s = .next (s.completed 3 rd.toNat h .none))

/-- From the bytes of the program to the register: a step over a LOAD of a 32-bit or 64-bit kind, low byte first, a
float payload kept bit for bit (D17). -/
def Obligations.StepLoadsWidePayloads : Prop :=
  ∀ (s : State) (rd p0 p1 p2 p3 p4 p5 p6 p7 : Byte) (rest : List Byte) (h : rd.toNat < 32), s.runState ≠ .stopped →
    s.prog.wf = true →
    (s.prog.bytes.drop s.pc = 0x01 :: rd :: 0x04 :: p0 :: p1 :: p2 :: p3 :: rest →
      step s = .next (s.completed 7 rd.toNat h (.u32 (p3 ++ p2 ++ p1 ++ p0)))) ∧
    (s.prog.bytes.drop s.pc = 0x01 :: rd :: 0x05 :: p0 :: p1 :: p2 :: p3 :: rest →
      step s = .next (s.completed 7 rd.toNat h (.i32 (p3 ++ p2 ++ p1 ++ p0)))) ∧
    (s.prog.bytes.drop s.pc = 0x01 :: rd :: 0x08 :: p0 :: p1 :: p2 :: p3 :: rest →
      step s = .next (s.completed 7 rd.toNat h (.f32 (p3 ++ p2 ++ p1 ++ p0)))) ∧
    (s.prog.bytes.drop s.pc = 0x01 :: rd :: 0x06 :: p0 :: p1 :: p2 :: p3 :: p4 :: p5 :: p6 :: p7 :: rest →
      step s = .next (s.completed 11 rd.toNat h (.u64 (p7 ++ p6 ++ p5 ++ p4 ++ p3 ++ p2 ++ p1 ++ p0)))) ∧
    (s.prog.bytes.drop s.pc = 0x01 :: rd :: 0x07 :: p0 :: p1 :: p2 :: p3 :: p4 :: p5 :: p6 :: p7 :: rest →
      step s = .next (s.completed 11 rd.toNat h (.i64 (p7 ++ p6 ++ p5 ++ p4 ++ p3 ++ p2 ++ p1 ++ p0)))) ∧
    (s.prog.bytes.drop s.pc = 0x01 :: rd :: 0x09 :: p0 :: p1 :: p2 :: p3 :: p4 :: p5 :: p6 :: p7 :: rest →
      step s = .next (s.completed 11 rd.toNat h (.f64 (p7 ++ p6 ++ p5 ++ p4 ++ p3 ++ p2 ++ p1 ++ p0))))

/-! ## Integer arithmetic -/

/-- The payloads of an integer kind are the integers of its range: every integer value holds one, and every integer of
the range is held by the value the kind makes of it (10_state.md R23). -/
def Obligations.IntegerKindsHoldTheirRange : Prop :=
  (∀ (v : Value) (k : IntKind) (a : Int), v.asInt = some (k, a) → k.lo ≤ a ∧ a ≤ k.hi ∧ k.mk a = v) ∧
    ∀ (k : IntKind) (r : Int), k.lo ≤ r → r ≤ k.hi → (k.mk r).asInt = some (k, r)

/-- ADD and SUB on two values of one integer kind complete when the exact sum, or the exact difference of the first
source less the second, is in the kind's range, and write it (43_arith.md; that every operation is range-checked is
the spec's decision D32). The sources are read before the write, so `rd` may be `ra` or `rb`. -/
def Obligations.AddAndSubWriteTheExactIntegerResult : Prop :=
  ∀ (ra rb rd : Byte) (s : State) (va vb : Value) (k : IntKind) (a b : Int) (h : rd.toNat < 32),
    readReg ra.toNat s = some va → readReg rb.toNat s = some vb → va.asInt = some (k, a) → vb.asInt = some (k, b) →
    (k.lo ≤ a + b → a + b ≤ k.hi → exec (.add ra rb rd) s = .next (s.completed 4 rd.toNat h (k.mk (a + b)))) ∧
    (k.lo ≤ a - b → a - b ≤ k.hi → exec (.sub ra rb rd) s = .next (s.completed 4 rd.toNat h (k.mk (a - b))))

/-- MUL on two values of one integer kind completes when the exact product is in the kind's range, and writes it
(43_arith.md; D32). -/
def Obligations.MulWritesTheExactIntegerProduct : Prop :=
  ∀ (ra rb rd : Byte) (s : State) (va vb : Value) (k : IntKind) (a b : Int) (h : rd.toNat < 32),
    readReg ra.toNat s = some va → readReg rb.toNat s = some vb → va.asInt = some (k, a) → vb.asInt = some (k, b) →
    k.lo ≤ a * b → a * b ≤ k.hi → exec (.mul ra rb rd) s = .next (s.completed 4 rd.toNat h (k.mk (a * b)))

/-- DIV on two values of one integer kind with a non-zero divisor completes, unless it is the least value of a signed
kind by -1, and writes the quotient rounded toward zero, first source by second (43_arith.md; operand order, rounding
and the overflow case are the spec's decisions D13, D12 and D14). -/
def Obligations.DivWritesTheQuotientTowardZero : Prop :=
  ∀ (ra rb rd : Byte) (s : State) (va vb : Value) (k : IntKind) (a b : Int) (h : rd.toNat < 32),
    readReg ra.toNat s = some va → readReg rb.toNat s = some vb → va.asInt = some (k, a) → vb.asInt = some (k, b) →
    b ≠ 0 → ¬(k.signed = true ∧ a = k.lo ∧ b = -1) →
    exec (.div ra rb rd) s = .next (s.completed 4 rd.toNat h (k.mk (Int.tdiv a b)))

/-- An integer operation whose exact result lies outside the kind's range faults with OVERFLOW and writes nothing,
whatever the destination index is: the range check comes before the destination check (D11, D32). -/
def Obligations.IntegerResultOutOfRangeFaults : Prop :=
  ∀ (op : ArithOp) (ra rb rd : Byte) (s : State) (va vb : Value) (k : IntKind) (a b r : Int),
    readReg ra.toNat s = some va → readReg rb.toNat s = some vb → va.asInt = some (k, a) → vb.asInt = some (k, b) →
    ((op = .add ∧ r = a + b) ∨ (op = .sub ∧ r = a - b) ∨ (op = .mul ∧ r = a * b) ∨
      (op = .div ∧ b ≠ 0 ∧ r = Int.tdiv a b)) →
    (r < k.lo ∨ k.hi < r) → exec (op.instr ra rb rd) s = .next (s.ended 4 .overflow)

/-- An integer DIV by 0 faults with DIVIDE_BY_ZERO, a zero dividend and a bad destination index included
(43_arith.md R175; the order of the checks is D11). -/
def Obligations.IntegerDivisionByZeroFaults : Prop :=
  ∀ (ra rb rd : Byte) (s : State) (va vb : Value) (k : IntKind) (a : Int),
    readReg ra.toNat s = some va → readReg rb.toNat s = some vb → va.asInt = some (k, a) → vb.asInt = some (k, 0) →
    exec (.div ra rb rd) s = .next (s.ended 4 .divideByZero)

/-! ## Operand checks -/

/-- Two sources of different kinds, or both None, are a mismatch: ADD and SUB fault, MUL and DIV stop silently, none
writes a register or a notice, and the destination index is not looked at (43_arith.md R171; the order is D11). -/
def Obligations.KindMismatchEndsTheStep : Prop :=
  ∀ (op : ArithOp) (ra rb rd : Byte) (s : State) (va vb : Value),
    readReg ra.toNat s = some va → readReg rb.toNat s = some vb → (va.kind ≠ vb.kind ∨ va.kind = .none) →
    exec (op.instr ra rb rd) s = .next (s.ended 4 op.mismatchCause) ∧
      (op.mismatchCause.isFatal = true ↔ op = .add ∨ op = .sub)

/-- A source index of 32 or more faults with INDEX_OUT_OF_RANGE before anything else is checked (10_state.md R28;
the order is D11). -/
def Obligations.SourceIndexOutOfRangeFaults : Prop :=
  ∀ (op : ArithOp) (ra rb rd : Byte) (s : State), (32 ≤ ra.toNat ∨ 32 ≤ rb.toNat) →
    exec (op.instr ra rb rd) s = .next (s.ended 4 .indexOutOfRange)

/-- An operation that would complete with a valid destination faults with INDEX_OUT_OF_RANGE when the destination
index is 32 or more, and writes nothing. -/
def Obligations.DestinationIndexOutOfRangeFaults : Prop :=
  ∀ (op : ArithOp) (ra rb rd good : Byte) (s t : State), exec (op.instr ra rb good) s = .next t →
    t.runState = .running → 32 ≤ rd.toNat → exec (op.instr ra rb rd) s = .next (s.ended 4 .indexOutOfRange)

/-- A completed arithmetic operation leaves in the destination a value of
the common kind of the sources, and every other register as it was (43_arith.md R183). -/
def Obligations.ArithmeticKeepsTheSourcesKind : Prop :=
  ∀ (op : ArithOp) (ra rb rd : Byte) (s t : State) (va vb : Value),
    readReg ra.toNat s = some va → readReg rb.toNat s = some vb → exec (op.instr ra rb rd) s = .next t →
    t.runState = .running →
    va.kind = vb.kind ∧ va.kind ≠ .none ∧ (∃ v, readReg rd.toNat t = some v ∧ v.kind = va.kind) ∧
      ∀ i, i ≠ rd.toNat → readReg i t = readReg i s

/-! ## Floating point -/

/-- A floating-point operation on two values of one float kind never stops: it completes with the IEEE-754 result, or,
where that is NaN, with some NaN encoding (43_arith.md section 4; the environment and the open NaN bits are the spec's
decisions D15 and D16, log entries 14 and 4). This is said for every draw. The one more draw counted is the model's own
field (log entry 5). -/
def Obligations.FloatArithmeticAlwaysCompletes : Prop :=
  ∀ (op : ArithOp) (ra rb rd : Byte) (s : State) (h : rd.toNat < 32),
    (∀ x y : BitVec 32, readReg ra.toNat s = some (.f32 x) → readReg rb.toNat s = some (.f32 y) →
      (∃ b, floatOp32 op x y = some b ∧ exec (op.instr ra rb rd) s = .next (s.completed 4 rd.toNat h (.f32 b))) ∨
        (floatOp32 op x y = none ∧ ∃ n, isNaN32 n = true ∧ exec (op.instr ra rb rd) s =
          .next { s.completed 4 rd.toNat h (.f32 n) with nanDraws := s.nanDraws + 1 })) ∧
    (∀ x y : BitVec 64, readReg ra.toNat s = some (.f64 x) → readReg rb.toNat s = some (.f64 y) →
      (∃ b, floatOp64 op x y = some b ∧ exec (op.instr ra rb rd) s = .next (s.completed 4 rd.toNat h (.f64 b))) ∨
        (floatOp64 op x y = none ∧ ∃ n, isNaN64 n = true ∧ exec (op.instr ra rb rd) s =
          .next { s.completed 4 rd.toNat h (.f64 n) with nanDraws := s.nanDraws + 1 }))

/-- The bits made from a free draw are always a NaN encoding of the width, and every NaN encoding is made from some
bits, so the free value ranges over exactly the encodings 00_scope.md R13 allows (log entry 4). -/
def Obligations.NanResultRangesOverAllNans : Prop :=
  (∀ raw, isNaN32 (nanOf32 raw) = true) ∧ (∀ b, isNaN32 b = true → ∃ raw, nanOf32 raw = b) ∧
    (∀ raw, isNaN64 (nanOf64 raw) = true) ∧ ∀ b, isNaN64 b = true → ∃ raw, nanOf64 raw = b

/-- A binary32 or binary64 operation gives NaN exactly for a NaN operand, `inf - inf`, `0 * inf`, `0 / 0` and
`inf / inf` (43_arith.md section 4; the environment is the spec's decisions D15 and D16, log entry 14).
`0x7F800000` is the infinity pattern without its sign. -/
def Obligations.NanResultsAreTheInvalidOperations : Prop :=
  (∀ (op : ArithOp) (x y : BitVec 32), floatOp32 op x y = none ↔
    isNaN32 x = true ∨ isNaN32 y = true ∨
    (x &&& 0x7FFFFFFF#32 = 0x7F800000#32 ∧ y &&& 0x7FFFFFFF#32 = 0x7F800000#32 ∧
      (op = .div ∨ (op = .add ∧ x.msb ≠ y.msb) ∨ (op = .sub ∧ x.msb = y.msb))) ∨
    (x &&& 0x7FFFFFFF#32 = 0#32 ∧ y &&& 0x7FFFFFFF#32 = 0#32 ∧ op = .div) ∨
    (op = .mul ∧ ((x &&& 0x7FFFFFFF#32 = 0#32 ∧ y &&& 0x7FFFFFFF#32 = 0x7F800000#32) ∨
      (x &&& 0x7FFFFFFF#32 = 0x7F800000#32 ∧ y &&& 0x7FFFFFFF#32 = 0#32)))) ∧
  (∀ (op : ArithOp) (x y : BitVec 64), floatOp64 op x y = none ↔
    isNaN64 x = true ∨ isNaN64 y = true ∨
    (x &&& 0x7FFFFFFFFFFFFFFF#64 = 0x7FF0000000000000#64 ∧ y &&& 0x7FFFFFFFFFFFFFFF#64 = 0x7FF0000000000000#64 ∧
      (op = .div ∨ (op = .add ∧ x.msb ≠ y.msb) ∨ (op = .sub ∧ x.msb = y.msb))) ∨
    (x &&& 0x7FFFFFFFFFFFFFFF#64 = 0#64 ∧ y &&& 0x7FFFFFFFFFFFFFFF#64 = 0#64 ∧ op = .div) ∨
    (op = .mul ∧ ((x &&& 0x7FFFFFFFFFFFFFFF#64 = 0#64 ∧ y &&& 0x7FFFFFFFFFFFFFFF#64 = 0x7FF0000000000000#64) ∨
      (x &&& 0x7FFFFFFFFFFFFFFF#64 = 0x7FF0000000000000#64 ∧ y &&& 0x7FFFFFFFFFFFFFFF#64 = 0#64))))

/-- A float DIV of a non-zero, non-NaN dividend by a zero gives the infinity whose sign is the exclusive or of the
operands' signs (43_arith.md section 4; the sign is the spec's general knowledge, and the
environment its decision D15, log entry 14). -/
def Obligations.FloatDivisionByZeroGivesInfinity : Prop :=
  (∀ x y : BitVec 32, isNaN32 x = false → x &&& 0x7FFFFFFF#32 ≠ 0#32 → y &&& 0x7FFFFFFF#32 = 0#32 →
    floatOp32 .div x y = some (if x.msb = y.msb then 0x7F800000#32 else 0xFF800000#32)) ∧
  (∀ x y : BitVec 64, isNaN64 x = false → x &&& 0x7FFFFFFFFFFFFFFF#64 ≠ 0#64 → y &&& 0x7FFFFFFFFFFFFFFF#64 = 0#64 →
    floatOp64 .div x y = some (if x.msb = y.msb then 0x7FF0000000000000#64 else 0xFFF0000000000000#64))

/-- A result that the operation does not call NaN is no NaN encoding, and it carries the right sign. A product or a
quotient: the exclusive or of the operands' signs. A sum or a difference, the subtrahend's sign turned: of finite
operands, the exact result's sign, and for an exact zero `-` only where both addends are negative; with an infinity,
the infinity's sign (43_arith.md section 4; the IEEE-754 environment these signs rest on is the spec's decision D15,
log entry 14). -/
def Obligations.FloatResultsCarryTheRightSign : Prop :=
  (∀ (op : ArithOp) (x y b : BitVec 32), floatOp32 op x y = some b →
    isNaN32 b = false ∧ (op = .mul ∨ op = .div → b.msb = (x.msb ^^ y.msb)) ∧
    (op = .add ∨ op = .sub →
      (∀ X Y, (binary32.unpack x.toNat).toRat = some X → (binary32.unpack y.toNat).toRat = some Y →
        b.msb = if exactRat op X Y = 0 then x.msb && (y.msb ^^ decide (op = .sub)) else decide (exactRat op X Y < 0)) ∧
      (x &&& 0x7FFFFFFF#32 = 0x7F800000#32 → b.msb = x.msb) ∧
      (y &&& 0x7FFFFFFF#32 = 0x7F800000#32 → b.msb = (y.msb ^^ decide (op = .sub))))) ∧
  (∀ (op : ArithOp) (x y b : BitVec 64), floatOp64 op x y = some b →
    isNaN64 b = false ∧ (op = .mul ∨ op = .div → b.msb = (x.msb ^^ y.msb)) ∧
    (op = .add ∨ op = .sub →
      (∀ X Y, (binary64.unpack x.toNat).toRat = some X → (binary64.unpack y.toNat).toRat = some Y →
        b.msb = if exactRat op X Y = 0 then x.msb && (y.msb ^^ decide (op = .sub)) else decide (exactRat op X Y < 0)) ∧
      (x &&& 0x7FFFFFFFFFFFFFFF#64 = 0x7FF0000000000000#64 → b.msb = x.msb) ∧
      (y &&& 0x7FFFFFFFFFFFFFFF#64 = 0x7FF0000000000000#64 → b.msb = (y.msb ^^ decide (op = .sub)))))

/-- At both widths: a finite float less itself, and plus its own negative, is `+0`; and the four sums and the four
differences of two zeros keep the sign that both addends have, and are `+0` otherwise (43_arith.md section 2; the
rounding mode that fixes these signs is the spec's decision D15, log entry 14). -/
def Obligations.FloatZeroSumsAndSelfDifferences : Prop :=
  (∀ x : BitVec 32, x &&& 0x7F800000#32 ≠ 0x7F800000#32 →
    floatOp32 .sub x x = some 0#32 ∧ floatOp32 .add x (x ^^^ 0x80000000#32) = some 0#32) ∧
  (∀ x : BitVec 64, x &&& 0x7FF0000000000000#64 ≠ 0x7FF0000000000000#64 →
    floatOp64 .sub x x = some 0#64 ∧ floatOp64 .add x (x ^^^ 0x8000000000000000#64) = some 0#64) ∧
  (∀ x y : BitVec 32, x &&& 0x7FFFFFFF#32 = 0#32 → y &&& 0x7FFFFFFF#32 = 0#32 →
    floatOp32 .add x y = some (if x.msb && y.msb then 0x80000000#32 else 0#32) ∧
    floatOp32 .sub x y = some (if x.msb && !y.msb then 0x80000000#32 else 0#32)) ∧
  (∀ x y : BitVec 64, x &&& 0x7FFFFFFFFFFFFFFF#64 = 0#64 → y &&& 0x7FFFFFFFFFFFFFFF#64 = 0#64 →
    floatOp64 .add x y = some (if x.msb && y.msb then 0x8000000000000000#64 else 0#64) ∧
    floatOp64 .sub x y = some (if x.msb && !y.msb then 0x8000000000000000#64 else 0#64))

/-- Correct rounding (00_scope.md R18, the spec's decisions D15 and D33, log entry 14): on finite operands each
operation of either format gives the representable number nearest to the exact rational result, a tie going to the
pattern whose last bit is 0, and it gives an infinity, of the exact result's sign, exactly from half a unit past the
greatest finite number on. It is said of the operations on data and of those on bit patterns that ADD, SUB, MUL and DIV
use, which then always give a result that is no NaN. -/
def Obligations.FloatOperationsRoundToNearestEven : Prop :=
  (∀ f : FloatFormat, f = binary32 ∨ f = binary64 →
    ∀ (op : ArithOp) (x y : Datum) (X Y : ℚ) (b : Nat), x.toRat = some X → y.toRat = some Y →
      (op = .div → Y ≠ 0) → f.op op x y = some b → f.IsRounded (exactRat op X Y) b) ∧
  (∀ (op : ArithOp) (x y : BitVec 32) (X Y : ℚ), (binary32.unpack x.toNat).toRat = some X →
    (binary32.unpack y.toNat).toRat = some Y → (op = .div → Y ≠ 0) →
    ∃ b, floatOp32 op x y = some b ∧ binary32.IsRounded (exactRat op X Y) b.toNat) ∧
  (∀ (op : ArithOp) (x y : BitVec 64) (X Y : ℚ), (binary64.unpack x.toNat).toRat = some X →
    (binary64.unpack y.toNat).toRat = some Y → (op = .div → Y ≠ 0) →
    ∃ b, floatOp64 op x y = some b ∧ binary64.IsRounded (exactRat op X Y) b.toNat)

/-- What the operations give with an infinite operand, at both widths. `x` is an infinity. With a finite `y`, or an
infinity that does not cancel it, `x + y`, `y + x` and `x - y` are `x` and `y - x` is `-x`. With a `y` that is no NaN
and no zero, `x * y` and `y * x` are the infinity signed by the exclusive or of the signs. With a finite `y`, a zero
included, `x / y` is that infinity and `y / x` the zero of that sign (43_arith.md section 4; infinities and signed zeros
are as IEEE-754 gives them by the spec's decision D15, log entry 14). -/
def Obligations.FloatOperationsWithAnInfinity : Prop :=
  (∀ x y : BitVec 32, x &&& 0x7FFFFFFF#32 = 0x7F800000#32 →
    (y &&& 0x7F800000#32 ≠ 0x7F800000#32 ∨ (y &&& 0x7FFFFFFF#32 = 0x7F800000#32 ∧ y.msb = x.msb) →
      floatOp32 .add x y = some x ∧ floatOp32 .add y x = some x) ∧
    (y &&& 0x7F800000#32 ≠ 0x7F800000#32 ∨ (y &&& 0x7FFFFFFF#32 = 0x7F800000#32 ∧ y.msb ≠ x.msb) →
      floatOp32 .sub x y = some x ∧ floatOp32 .sub y x = some (x ^^^ 0x80000000#32)) ∧
    (isNaN32 y = false → y &&& 0x7FFFFFFF#32 ≠ 0#32 →
      floatOp32 .mul x y = some (if x.msb = y.msb then 0x7F800000#32 else 0xFF800000#32) ∧
      floatOp32 .mul y x = some (if x.msb = y.msb then 0x7F800000#32 else 0xFF800000#32)) ∧
    (y &&& 0x7F800000#32 ≠ 0x7F800000#32 →
      floatOp32 .div x y = some (if x.msb = y.msb then 0x7F800000#32 else 0xFF800000#32) ∧
      floatOp32 .div y x = some (if x.msb = y.msb then 0#32 else 0x80000000#32))) ∧
  (∀ x y : BitVec 64, x &&& 0x7FFFFFFFFFFFFFFF#64 = 0x7FF0000000000000#64 →
    (y &&& 0x7FF0000000000000#64 ≠ 0x7FF0000000000000#64 ∨
        (y &&& 0x7FFFFFFFFFFFFFFF#64 = 0x7FF0000000000000#64 ∧ y.msb = x.msb) →
      floatOp64 .add x y = some x ∧ floatOp64 .add y x = some x) ∧
    (y &&& 0x7FF0000000000000#64 ≠ 0x7FF0000000000000#64 ∨
        (y &&& 0x7FFFFFFFFFFFFFFF#64 = 0x7FF0000000000000#64 ∧ y.msb ≠ x.msb) →
      floatOp64 .sub x y = some x ∧ floatOp64 .sub y x = some (x ^^^ 0x8000000000000000#64)) ∧
    (isNaN64 y = false → y &&& 0x7FFFFFFFFFFFFFFF#64 ≠ 0#64 →
      floatOp64 .mul x y = some (if x.msb = y.msb then 0x7FF0000000000000#64 else 0xFFF0000000000000#64) ∧
      floatOp64 .mul y x = some (if x.msb = y.msb then 0x7FF0000000000000#64 else 0xFFF0000000000000#64)) ∧
    (y &&& 0x7FF0000000000000#64 ≠ 0x7FF0000000000000#64 →
      floatOp64 .div x y = some (if x.msb = y.msb then 0x7FF0000000000000#64 else 0xFFF0000000000000#64) ∧
      floatOp64 .div y x = some (if x.msb = y.msb then 0#64 else 0x8000000000000000#64)))

/-! ## The run driver and the host interface -/

/-- RUN repeats the step until it reports stop: one step and, unless that step reports stop, a run from where it left
the engine (40_cycle_and_host.md section 2; the Boolean of a step is read off its state, log entry 2, and the model's
run is bounded, log entry 10). -/
def Obligations.RunRepeatsTheStepUntilItStops : Prop :=
  ∀ s t : State, step s = .next t → run s = if shouldStop t then .next t else run t

/-- RUN always ends Stopped, after at most `floor((len(prog) + 1) / 3) + 1` steps (40_cycle_and_host.md R113), from
every state. -/
def Obligations.RunStopsWithinTheBound : Prop :=
  ∀ s : State, ∃ t, runSteps ((s.prog.length + 1) / 3 + 1) s = .next t ∧ t.runState = .stopped ∧ run s = .next t

/-- STEP performs one step and returns its result, true exactly when the engine is then Stopped; RUN performs the run
and returns true with the engine stopped, and in Stopped at once (40_cycle_and_host.md section 3; the flag is read off
the state, log entry 2). -/
def Obligations.StepAndRunOperationsReturnTheStopFlag : Prop :=
  ∀ s : State,
    (∃ t, step s = .next t ∧ hostOp .step s = .next (t, .flag (decide (t.runState = .stopped)))) ∧
    (∃ t, run s = .next t ∧ hostOp .run s = .next (t, .flag true) ∧ t.runState = .stopped) ∧
    (s.runState = .stopped → hostOp .run s = .next (s, .flag true))

/-- 60_exceptions.md R231: only SETPROG and RESET leave Stopped; SETPROG restarts at offset 0 with the register file
kept. -/
def Obligations.OnlySetProgAndResetLeaveStopped : Prop :=
  ∀ (o : HostOp) (s t : State) (r : HostReply), s.runState = .stopped → hostOp o s = .next (t, r) →
    t.runState ≠ .stopped → o = .reset ∨ ∃ b, o = .setProg b ∧ t.pc = 0 ∧ t.regs = s.regs ∧ t.prog = Memory.ofBytes b

/-- SETPROG installs the program and restarts, keeping the registers and DIAG (the spec's decision D27); it is refused
while Running and for a program longer than LEN_MAX (D20). -/
def Obligations.SetProgInstallsOrRefuses : Prop :=
  ∀ (b : List Byte) (s : State),
    (s.runState ≠ .running → b.length ≤ Config.lenMax →
      hostOp (.setProg b) s = .next ({ s with prog := Memory.ofBytes b, pc := 0, runState := .ready,
                                              stopCause := .none, stopAddr := 0 }, .done)) ∧
    (s.runState = .running → hostOp (.setProg b) s = .next (s, .error)) ∧
    (Config.lenMax < b.length → hostOp (.setProg b) s = .next (s, .error))

/-- The first instruction executed after a program is installed is the one at program offset 0
(70_reset_and_hazards.md section 1; `restart 0` is what an accepted SETPROG does, the spec's decision D27). -/
def Obligations.InstalledProgramStartsAtOffsetZero : Prop :=
  ∀ (b : List Byte) (s : State) (i : Instr), 2 ≤ b.length → decode b = .ok i →
    step (restart 0 (Memory.ofBytes b) s) = exec i (restart 0 (Memory.ofBytes b) s)

/-- The host's pair of a value, kind by kind: its KIND code and, in the low bits, its payload; the pair of every value
writes that value back. What a host writes to a register it reads back, payload bits above the kind's width as 0, and
nothing else of the state changes (10_state.md section 2, the spec's decisions D18, D19 and D28). -/
def Obligations.HostRegisterWritesReadBack : Prop :=
  (∀ (b : BitVec 8) (h : BitVec 16) (w : BitVec 32) (d : BitVec 64),
    (Value.u8 b).toHost = (0, b.setWidth 64) ∧ (Value.i8 b).toHost = (1, b.setWidth 64) ∧
    (Value.u16 h).toHost = (2, h.setWidth 64) ∧ (Value.i16 h).toHost = (3, h.setWidth 64) ∧
    (Value.u32 w).toHost = (4, w.setWidth 64) ∧ (Value.i32 w).toHost = (5, w.setWidth 64) ∧
    (Value.u64 d).toHost = (6, d) ∧ (Value.i64 d).toHost = (7, d) ∧
    (Value.f32 w).toHost = (8, w.setWidth 64) ∧ (Value.f64 d).toHost = (9, d) ∧ Value.toHost .none = (15, 0)) ∧
  (∀ v : Value, Value.ofHost v.toHost.1 v.toHost.2 = some v ∧ hostKindBits v.toHost.1 ≠ none) ∧
  ∀ (i : Nat) (kind : BitVec 4) (payload : BitVec 64) (n : Nat) (s : State), i < 32 → hostKindBits kind = some n →
    ∃ t, hostOp (.writeReg i kind payload) s = .next (t, .done) ∧
      hostOp (.readReg i) t = .next (t, .reg kind ((payload.setWidth n).setWidth 64)) ∧
      (∀ j, j ≠ i → readReg j t = readReg j s) ∧ t = { s with regs := t.regs }

/-- The read operations change nothing: READPC returns `pc`, READREG the register, below 32, as its pair, READSTATUS
the three status registers and READDIAG the notices; READREG of 32 or more is refused (40_cycle_and_host.md section 3;
the pair, the status registers and DIAG are the spec's decisions D18, D6 and D22). -/
def Obligations.ReadOperationsReturnTheState : Prop :=
  ∀ s : State, hostOp .readPc s = .next (s, .pc s.pc) ∧
    (∀ (i : Nat) (h : i < 32), hostOp (.readReg i) s = .next (s, .reg s.regs[i].toHost.1 s.regs[i].toHost.2)) ∧
    (∀ i, 32 ≤ i → hostOp (.readReg i) s = .next (s, .error)) ∧
    hostOp .readStatus s = .next (s, .status s.runState.code s.stopCause.code s.stopAddr) ∧
    hostOp .readDiag s = .next (s, .diag s.diag)

/-- A refused operation changes no state and answers HOST_ERROR, and only the operations of the spec's list are refused
(40_cycle_and_host.md R132, the spec's decision D20). -/
def Obligations.RefusedOperationsChangeNothing : Prop :=
  ∀ (o : HostOp) (s : State), ∃ t r, hostOp o s = .next (t, r) ∧ (r = .error ↔ o.refusedIn s) ∧ (r = .error → t = s)

/-- DIAG only grows, by any host operation but RESET (10_state.md R42, the spec's decision D22). -/
def Obligations.DiagnosticsAreAppendOnly : Prop :=
  ∀ (o : HostOp) (s t : State) (r : HostReply), hostOp o s = .next (t, r) → o ≠ .reset → s.diag <+: t.diag

/-- READSTATUS returns the three status registers by their codes. The three codes of RUN_STATE and the eleven of
STOP_CAUSE are those of the spec's tables, so distinct causes have distinct codes, and a code is fatal exactly when its
bit 3 is set (10_state.md section 5, 60_exceptions.md section 1, the spec's decisions D5 and D6). -/
def Obligations.StatusCodesTellTheCause : Prop :=
  (∀ s : State, hostOp .readStatus s = .next (s, .status s.runState.code s.stopCause.code s.stopAddr)) ∧
    (RunState.code .ready = 0 ∧ RunState.code .running = 1 ∧ RunState.code .stopped = 2) ∧
    (StopCause.code .none = 0 ∧ StopCause.code .endOfProgram = 1 ∧ StopCause.code .halted = 2 ∧
      StopCause.code .illegalOpcode = 3 ∧ StopCause.code .mulDivTypeMismatch = 4 ∧
      StopCause.code .addSubTypeMismatch = 8 ∧ StopCause.code .indexOutOfRange = 9 ∧
      StopCause.code .divideByZero = 10 ∧ StopCause.code .overflow = 11 ∧
      StopCause.code .decodeOutOfBounds = 12 ∧ StopCause.code .emptyProgram = 13) ∧
    (∀ c d : StopCause, c.code = d.code → c = d) ∧ ∀ c : StopCause, c.isFatal = c.code.getLsbD 3
end

