-- ==== Sys2Proof/Laws/Codec.lean ====
section
/-! SUPPORT. What the byte-order helpers, the payload widths and the decoder do. -/

namespace Sys2Proof

@[simp] theorem length_leBytes (n v : Nat) : (leBytes n v).length = n := by
  induction n generalizing v with
  | zero => rfl
  | succ n ih => simp [leBytes, ih]

@[simp] theorem length_beBytes (n v : Nat) : (beBytes n v).length = n := by simp [beBytes]

/-- Little-endian bytes assemble to the value they were taken from, cut to their width. -/
theorem leNat_leBytes (n v : Nat) : leNat (leBytes n v) = v % 256 ^ n := by
  induction n generalizing v with
  | zero => simp [leBytes, leNat, Nat.mod_one]
  | succ n ih =>
    have h : (BitVec.ofNat 8 (v % 256)).toNat = v % 256 := by simp
    rw [leBytes, leNat, ih, h, Nat.pow_succ, Nat.mul_comm (256 ^ n) 256, Nat.mod_mul]

theorem beNat_beBytes (n v : Nat) : beNat (beBytes n v) = v % 256 ^ n := by
  simp [beNat, beBytes, leNat_leBytes]

/-- The bytes of an assembled value are the bytes it was assembled from. -/
theorem leBytes_leNat (bs : List Byte) : leBytes bs.length (leNat bs) = bs := by
  induction bs with
  | nil => rfl
  | cons b bs ih =>
    have h1 : (b.toNat + 256 * leNat bs) % 256 = b.toNat := by have := b.isLt; omega
    have h2 : (b.toNat + 256 * leNat bs) / 256 = leNat bs := by have := b.isLt; omega
    simp only [List.length_cons, leBytes, leNat, h1, h2, ih, BitVec.ofNat_toNat, BitVec.setWidth_eq]

theorem beBytes_beNat (bs : List Byte) : beBytes bs.length (beNat bs) = bs := by
  have h := leBytes_leNat bs.reverse
  rw [List.length_reverse] at h
  simp [beBytes, beNat, h]

theorem leNat_lt (bs : List Byte) : leNat bs < 256 ^ bs.length := by
  induction bs with
  | nil => simp [leNat]
  | cons b bs ih =>
    have := b.isLt
    simp only [leNat, List.length_cons, Nat.pow_succ]
    omega

/-- Every way the decoder can answer: too few bytes, or one instruction of the opcode map. -/
theorem decode_cases (op : Byte) (rest : List Byte) :
    (op = 0x00 ∧ decode (op :: rest) = .ok .halt) ∨
      (op = 0x01 ∧ decode (op :: rest) = decodeLoad rest) ∨
      (op = 0x02 ∧ decode (op :: rest) = decodeR3 .add rest) ∨
      (op = 0x03 ∧ decode (op :: rest) = decodeR3 .sub rest) ∨
      (op = 0x04 ∧ decode (op :: rest) = decodeR3 .mul rest) ∨
      (op = 0x05 ∧ decode (op :: rest) = decodeR3 .div rest) ∨
      (0x06 ≤ op.toNat ∧ decode (op :: rest) = .ok (.illegal op)) := by
  by_cases h0 : op = 0x00
  · exact .inl ⟨h0, by simp [decode, h0]⟩
  by_cases h1 : op = 0x01
  · exact .inr (.inl ⟨h1, by simp [decode, h1]⟩)
  by_cases h2 : op = 0x02
  · exact .inr (.inr (.inl ⟨h2, by simp [decode, h2]⟩))
  by_cases h3 : op = 0x03
  · exact .inr (.inr (.inr (.inl ⟨h3, by simp [decode, h3]⟩)))
  by_cases h4 : op = 0x04
  · exact .inr (.inr (.inr (.inr (.inl ⟨h4, by simp [decode, h4]⟩))))
  by_cases h5 : op = 0x05
  · exact .inr (.inr (.inr (.inr (.inr (.inl ⟨h5, by simp [decode, h5]⟩)))))
  · refine .inr (.inr (.inr (.inr (.inr (.inr ⟨?_, ?_⟩)))))
    · have e (n : Nat) (hn : n < 256) (h : op ≠ BitVec.ofNat 8 n) : op.toNat ≠ n := by
        intro he
        apply h
        rw [← he]
        simp
      have := e 0 (by omega) h0
      have := e 1 (by omega) h1
      have := e 2 (by omega) h2
      have := e 3 (by omega) h3
      have := e 4 (by omega) h4
      have := e 5 (by omega) h5
      omega
    · simp only [decode, if_neg h0, if_neg h1, if_neg h2, if_neg h3, if_neg h4, if_neg h5]

/-- No instruction is longer than eleven bytes. -/
theorem Instr.length_le (i : Instr) : i.length ≤ maxLength := by cases i <;> simp [Instr.length, maxLength]

end Sys2Proof
end

