-- ==== Sys2Proof/Laws/Float.lean ====
section
/-! SUPPORT. What the bit patterns of the two float formats stand for, in terms of masks, and the shape of what the
float operations answer. -/

namespace Sys2Proof.Machine

open Sys2Proof

/-- Masking with `k` ones at place `m` keeps that field. -/
theorem and_field (n m k : Nat) : n &&& (2 ^ k - 1) * 2 ^ m = n / 2 ^ m % 2 ^ k * 2 ^ m := by
  rw [← Nat.shiftLeft_eq, ← Nat.shiftLeft_eq, ← Nat.shiftRight_eq_div_pow]
  apply Nat.eq_of_testBit_eq
  intro i
  simp only [Nat.testBit_and, Nat.testBit_shiftLeft, Nat.testBit_two_pow_sub_one, Nat.testBit_mod_two_pow,
    Nat.testBit_shiftRight]
  by_cases h : m ≤ i
  · simp [h, Nat.add_sub_cancel' h, Bool.and_comm]
  · simp [h]

theorem and_low (n k : Nat) : n &&& 2 ^ k - 1 = n % 2 ^ k := Nat.and_two_pow_sub_one_eq_mod n k

/-- The exponent field of a binary32 pattern is all ones. -/
theorem exp32_iff (x : BitVec 32) : x &&& 0x7F800000#32 = 0x7F800000#32 ↔ x.toNat / 2 ^ 23 % 2 ^ 8 = 255 := by
  rw [← BitVec.toNat_inj, BitVec.toNat_and]
  have h := and_field x.toNat 23 8
  norm_num at h ⊢
  rw [h]
  omega

theorem frac32_iff (x : BitVec 32) : x &&& 0x007FFFFF#32 = 0#32 ↔ x.toNat % 2 ^ 23 = 0 := by
  rw [← BitVec.toNat_inj, BitVec.toNat_and]
  have h := and_low x.toNat 23
  norm_num at h ⊢
  rw [h]

/-- A binary32 magnitude: the pattern without its sign. -/
theorem mag32_iff (x : BitVec 32) (m : Nat) (hm : m < 2 ^ 31) :
    x &&& 0x7FFFFFFF#32 = BitVec.ofNat 32 m ↔ x.toNat % 2 ^ 31 = m := by
  rw [← BitVec.toNat_inj, BitVec.toNat_and, BitVec.toNat_ofNat]
  have h := and_low x.toNat 31
  norm_num at h hm ⊢
  rw [h]
  omega

theorem exp64_iff (x : BitVec 64) :
    x &&& 0x7FF0000000000000#64 = 0x7FF0000000000000#64 ↔ x.toNat / 2 ^ 52 % 2 ^ 11 = 2047 := by
  rw [← BitVec.toNat_inj, BitVec.toNat_and]
  have h := and_field x.toNat 52 11
  norm_num at h ⊢
  rw [h]
  omega

theorem frac64_iff (x : BitVec 64) : x &&& 0x000FFFFFFFFFFFFF#64 = 0#64 ↔ x.toNat % 2 ^ 52 = 0 := by
  rw [← BitVec.toNat_inj, BitVec.toNat_and]
  have h := and_low x.toNat 52
  norm_num at h ⊢
  rw [h]

theorem mag64_iff (x : BitVec 64) (m : Nat) (hm : m < 2 ^ 63) :
    x &&& 0x7FFFFFFFFFFFFFFF#64 = BitVec.ofNat 64 m ↔ x.toNat % 2 ^ 63 = m := by
  rw [← BitVec.toNat_inj, BitVec.toNat_and, BitVec.toNat_ofNat]
  have h := and_low x.toNat 63
  norm_num at h hm ⊢
  rw [h]
  omega

theorem msb32_eq (x : BitVec 32) : x.msb = decide (x.toNat / 2 ^ 31 % 2 = 1) := by
  rw [BitVec.msb_eq_decide]
  have := x.isLt
  congr 1
  apply propext
  omega

theorem msb64_eq (x : BitVec 64) : x.msb = decide (x.toNat / 2 ^ 63 % 2 = 1) := by
  rw [BitVec.msb_eq_decide]
  have := x.isLt
  congr 1
  apply propext
  omega

/-- The datum of a binary32 pattern, from its sign, exponent field and fraction field. -/
theorem unpack32_eq (x : BitVec 32) : binary32.unpack x.toNat =
    if x.toNat / 2 ^ 23 % 2 ^ 8 = 255 then (if x.toNat % 2 ^ 23 = 0 then .inf x.msb else .nan)
    else if x.toNat / 2 ^ 23 % 2 ^ 8 = 0 then .finite x.msb (x.toNat % 2 ^ 23) (-149)
    else .finite x.msb (2 ^ 23 + x.toNat % 2 ^ 23) (-149 + (x.toNat / 2 ^ 23 % 2 ^ 8 - 1 : Nat)) := by
  rw [msb32_eq]
  rfl

/-- The datum of a binary64 pattern, from its sign, exponent field and fraction field. -/
theorem unpack64_eq (x : BitVec 64) : binary64.unpack x.toNat =
    if x.toNat / 2 ^ 52 % 2 ^ 11 = 2047 then (if x.toNat % 2 ^ 52 = 0 then .inf x.msb else .nan)
    else if x.toNat / 2 ^ 52 % 2 ^ 11 = 0 then .finite x.msb (x.toNat % 2 ^ 52) (-1074)
    else .finite x.msb (2 ^ 52 + x.toNat % 2 ^ 52) (-1074 + (x.toNat / 2 ^ 52 % 2 ^ 11 - 1 : Nat)) := by
  rw [msb64_eq]
  rfl

/-- A binary32 pattern is a NaN encoding exactly when it stands for NaN. -/
theorem isNaN32_iff (x : BitVec 32) : isNaN32 x = true ↔ binary32.unpack x.toNat = .nan := by
  rw [unpack32_eq]
  simp only [isNaN32, Bool.and_eq_true, decide_eq_true_eq, exp32_iff, ne_eq, frac32_iff]
  split
  · split <;> simp <;> omega
  · split <;> simp <;> omega

theorem isNaN64_iff (x : BitVec 64) : isNaN64 x = true ↔ binary64.unpack x.toNat = .nan := by
  rw [unpack64_eq]
  simp only [isNaN64, Bool.and_eq_true, decide_eq_true_eq, exp64_iff, ne_eq, frac64_iff]
  split
  · split <;> simp <;> omega
  · split <;> simp <;> omega

/-- The infinity patterns of binary32 stand for the infinities. -/
theorem inf32_iff (x : BitVec 32) : x &&& 0x7FFFFFFF#32 = 0x7F800000#32 ↔ binary32.unpack x.toNat = .inf x.msb := by
  rw [unpack32_eq, mag32_iff x 0x7F800000 (by norm_num)]
  split
  · split <;> simp <;> omega
  · split <;> simp <;> omega

theorem inf64_iff (x : BitVec 64) :
    x &&& 0x7FFFFFFFFFFFFFFF#64 = 0x7FF0000000000000#64 ↔ binary64.unpack x.toNat = .inf x.msb := by
  rw [unpack64_eq, mag64_iff x 0x7FF0000000000000 (by norm_num)]
  split
  · split <;> simp <;> omega
  · split <;> simp <;> omega

/-- The zero patterns of binary32 stand for the zeros. -/
theorem zero32_iff (x : BitVec 32) : x &&& 0x7FFFFFFF#32 = 0#32 ↔ binary32.unpack x.toNat = .finite x.msb 0 (-149) := by
  rw [unpack32_eq, mag32_iff x 0 (by norm_num)]
  split
  · split <;> simp <;> omega
  · split <;> simp <;> omega

theorem zero64_iff (x : BitVec 64) :
    x &&& 0x7FFFFFFFFFFFFFFF#64 = 0#64 ↔ binary64.unpack x.toNat = .finite x.msb 0 (-1074) := by
  rw [unpack64_eq, mag64_iff x 0 (by norm_num)]
  split
  · split <;> simp <;> omega
  · split <;> simp <;> omega

/-- Turning the sign bit of a binary32 pattern turns the sign of the datum it stands for. -/
theorem unpack32_flip (x : BitVec 32) :
    binary32.unpack (x ^^^ 0x80000000#32).toNat = (binary32.unpack x.toNat).negate := by
  have low : (x ^^^ 0x80000000#32).toNat % 2 ^ 31 = x.toNat % 2 ^ 31 := by
    rw [BitVec.toNat_xor, Nat.xor_mod_two_pow]
    simp
  have top : (x ^^^ 0x80000000#32).msb = !x.msb := by
    rw [BitVec.msb_xor, show (0x80000000#32).msb = true from rfl, Bool.xor_true]
  rw [unpack32_eq, unpack32_eq, top]
  generalize (x ^^^ 0x80000000#32).toNat = y at low
  have frac : y % 2 ^ 23 = x.toNat % 2 ^ 23 := by omega
  have exp : y / 2 ^ 23 % 2 ^ 8 = x.toNat / 2 ^ 23 % 2 ^ 8 := by omega
  rw [frac, exp]
  split
  · split <;> rfl
  · split <;> rfl

theorem unpack64_flip (x : BitVec 64) :
    binary64.unpack (x ^^^ 0x8000000000000000#64).toNat = (binary64.unpack x.toNat).negate := by
  have low : (x ^^^ 0x8000000000000000#64).toNat % 2 ^ 63 = x.toNat % 2 ^ 63 := by
    rw [BitVec.toNat_xor, Nat.xor_mod_two_pow]
    simp
  have top : (x ^^^ 0x8000000000000000#64).msb = !x.msb := by
    rw [BitVec.msb_xor, show (0x8000000000000000#64).msb = true from rfl, Bool.xor_true]
  rw [unpack64_eq, unpack64_eq, top]
  generalize (x ^^^ 0x8000000000000000#64).toNat = y at low
  have frac : y % 2 ^ 52 = x.toNat % 2 ^ 52 := by omega
  have exp : y / 2 ^ 52 % 2 ^ 11 = x.toNat / 2 ^ 52 % 2 ^ 11 := by omega
  rw [frac, exp]
  split
  · split <;> rfl
  · split <;> rfl

/-- A finite datum and its negative add to `+0`. -/
theorem FloatFormat.add_negate_self (f : FloatFormat) (neg : Bool) (m : Nat) (e : Int) :
    f.add (.finite neg m e) (.finite (!neg) m e) = some 0 := by
  have cancel (k : Nat) : signedInt neg k + signedInt (!neg) k = 0 := by
    cases neg <;> simp [signedInt]
  simp only [FloatFormat.add, cancel]
  simp [FloatFormat.round, FloatFormat.withSign]

/-- A rounded quotient lies within half a divisor of the exact one, and a tie goes to an even integer. -/
theorem roundQuotient_spec (num den : Nat) (hd : 0 < den) :
    2 * num ≤ 2 * (roundQuotient num den * den) + den ∧ 2 * (roundQuotient num den * den) ≤ 2 * num + den ∧
      ((2 * num = 2 * (roundQuotient num den * den) + den ∨ 2 * (roundQuotient num den * den) = 2 * num + den) →
        roundQuotient num den % 2 = 0) := by
  have h := Nat.div_add_mod num den
  have hr := Nat.mod_lt num hd
  unfold roundQuotient
  dsimp only
  generalize num / den = q at *
  generalize num % den = r at *
  subst h
  have e : (q + 1) * den = den * q + den := by ring
  have e' : q * den = den * q := Nat.mul_comm _ _
  split
  · rw [e]
    omega
  · rw [e']
    omega

/-- `floorLog2` is the floor of the binary logarithm of a positive quotient. -/
theorem floorLog2_spec (num den : Nat) (hn : 0 < num) (hd : 0 < den) :
    (2 : ℚ) ^ floorLog2 num den * den ≤ num ∧ (num : ℚ) < 2 ^ (floorLog2 num den + 1) * den := by
  have n1 : (2 : ℚ) ^ (num.log2 : ℤ) ≤ num := by
    rw [zpow_natCast]; exact_mod_cast Nat.log2_self_le hn.ne'
  have n2 : (num : ℚ) < 2 ^ ((num.log2 : ℤ) + 1) := by
    have := Nat.lt_log2_self (n := num)
    exact_mod_cast this
  have d1 : (2 : ℚ) ^ (den.log2 : ℤ) ≤ den := by
    rw [zpow_natCast]; exact_mod_cast Nat.log2_self_le hd.ne'
  have d2 : (den : ℚ) < 2 ^ ((den.log2 : ℤ) + 1) := by
    have := Nat.lt_log2_self (n := den)
    exact_mod_cast this
  have dpos : (0 : ℚ) < den := by exact_mod_cast hd
  have key : ∀ l : ℤ, (den * 2 ^ l.toNat ≤ num * 2 ^ (-l).toNat ↔ (2 : ℚ) ^ l * den ≤ num) := by
    intro l
    have hl : (2 : ℚ) ^ l * 2 ^ (-l).toNat = 2 ^ l.toNat := by
      rw [← zpow_natCast, ← zpow_natCast, ← zpow_add₀ (by norm_num)]
      congr 1
      omega
    have hp : (0 : ℚ) < 2 ^ (-l).toNat := by positivity
    rw [← mul_le_mul_iff_left₀ hp, mul_right_comm, hl, mul_comm]
    exact_mod_cast Iff.rfl
  unfold floorLog2
  dsimp only
  generalize hl : (num.log2 : ℤ) - (den.log2 : ℤ) = l
  have two : (2 : ℚ) ≠ 0 := by norm_num
  split
  · rename_i h
    refine ⟨(key l).1 h, ?_⟩
    calc (num : ℚ) < 2 ^ ((num.log2 : ℤ) + 1) := n2
      _ = 2 ^ (l + 1) * 2 ^ (den.log2 : ℤ) := by rw [← zpow_add₀ two]; congr 1; omega
      _ ≤ 2 ^ (l + 1) * den := by gcongr
  · rename_i h
    rw [key] at h
    push Not at h
    refine ⟨?_, by simpa using h⟩
    calc (2 : ℚ) ^ (l - 1) * den ≤ 2 ^ (l - 1) * 2 ^ ((den.log2 : ℤ) + 1) := by gcongr
      _ = 2 ^ (num.log2 : ℤ) := by rw [← zpow_add₀ two]; congr 1; omega
      _ ≤ num := n1

/-- Rounding gives an infinity or a magnitude below it, with the sign asked for. -/
theorem FloatFormat.round_cases (f : FloatFormat) (hf : 0 < f.topExp * f.expUnit) (neg : Bool) (num den : Nat) (exp : Int) :
    f.round neg num den exp = f.infinity neg ∨
      ∃ mag, mag < f.topExp * f.expUnit ∧ f.round neg num den exp = f.withSign neg mag := by
  unfold FloatFormat.round
  split
  · exact .inr ⟨0, hf, rfl⟩
  · dsimp only
    split
    · exact .inl rfl
    · exact .inr ⟨_, by omega, rfl⟩

/-- What an operation that is not NaN can answer: an infinity, a zero, or a rounded number. -/
theorem FloatFormat.op_cases (f : FloatFormat) (op : ArithOp) (x y : Datum) (n : Nat) (h : f.op op x y = some n) :
    (∃ neg, n = f.infinity neg) ∨ (∃ neg, n = f.withSign neg 0) ∨
      ∃ neg num den exp, n = f.round neg num den exp := by
  cases op <;> cases x <;> cases y <;>
    simp only [FloatFormat.op, FloatFormat.sub, Datum.negate, FloatFormat.add, FloatFormat.mul, FloatFormat.div,
      reduceCtorEq] at h <;>
    (try split at h) <;> (try split at h) <;> simp only [Option.some.injEq, reduceCtorEq] at h <;> subst h <;>
    first
      | exact .inl ⟨_, rfl⟩
      | exact .inr (.inl ⟨_, rfl⟩)
      | exact .inr (.inr ⟨_, _, _, _, rfl⟩)

/-- The finite patterns are those whose exponent field is not all ones. -/
theorem finite32_iff (x : BitVec 32) :
    x &&& 0x7F800000#32 ≠ 0x7F800000#32 ↔ ∃ m e, binary32.unpack x.toNat = .finite x.msb m e := by
  rw [unpack32_eq, ne_eq, exp32_iff]
  split
  · split <;> simp_all
  · split <;> simp_all

/-- The sign of the datum a binary32 pattern stands for is the pattern's. -/
theorem unpack32_sign (x : BitVec 32) :
    (∀ a, binary32.unpack x.toNat = .inf a → a = x.msb) ∧
      ∀ a m e, binary32.unpack x.toNat = .finite a m e → a = x.msb := by
  rw [unpack32_eq]
  split
  · split <;> simp
  · split <;> simp

/-- A magnitude up to infinity's, under a sign: it fits the width, is no NaN encoding and has that sign. -/
theorem withSign32_spec (neg : Bool) (mag : Nat) (h : mag ≤ binary32.topExp * binary32.expUnit) :
    binary32.withSign neg mag < 2 ^ 32 ∧ isNaN32 (BitVec.ofNat 32 (binary32.withSign neg mag)) = false ∧
      (BitVec.ofNat 32 (binary32.withSign neg mag)).msb = neg := by
  have h' : mag ≤ 255 * 2 ^ 23 := h
  have hs : binary32.withSign neg mag = (if neg then 2 ^ 31 else 0) + mag := rfl
  refine ⟨?_, ?_, ?_⟩
  · cases neg <;> simp [hs] <;> omega
  · rw [Bool.eq_false_iff, ne_eq, isNaN32]
    simp only [Bool.and_eq_true, decide_eq_true_eq, exp32_iff, frac32_iff, ne_eq, BitVec.toNat_ofNat, hs]
    cases neg <;> simp <;> omega
  · rw [msb32_eq, hs]
    cases neg <;> simp <;> omega

/-- A rounded result fits the width, is no NaN encoding and has the sign asked for. -/
theorem round32_spec (neg : Bool) (num den : Nat) (exp : Int) :
    binary32.round neg num den exp < 2 ^ 32 ∧ isNaN32 (BitVec.ofNat 32 (binary32.round neg num den exp)) = false ∧
      (BitVec.ofNat 32 (binary32.round neg num den exp)).msb = neg := by
  rcases FloatFormat.round_cases binary32 (by decide) neg num den exp with e | ⟨m, hm, e⟩ <;> rw [e]
  · exact withSign32_spec _ _ (le_refl _)
  · exact withSign32_spec _ _ (by omega)

theorem finite64_iff (x : BitVec 64) :
    x &&& 0x7FF0000000000000#64 ≠ 0x7FF0000000000000#64 ↔ ∃ m e, binary64.unpack x.toNat = .finite x.msb m e := by
  rw [unpack64_eq, ne_eq, exp64_iff]
  split
  · split <;> simp_all
  · split <;> simp_all

theorem unpack64_sign (x : BitVec 64) :
    (∀ a, binary64.unpack x.toNat = .inf a → a = x.msb) ∧
      ∀ a m e, binary64.unpack x.toNat = .finite a m e → a = x.msb := by
  rw [unpack64_eq]
  split
  · split <;> simp
  · split <;> simp

theorem withSign64_spec (neg : Bool) (mag : Nat) (h : mag ≤ binary64.topExp * binary64.expUnit) :
    binary64.withSign neg mag < 2 ^ 64 ∧ isNaN64 (BitVec.ofNat 64 (binary64.withSign neg mag)) = false ∧
      (BitVec.ofNat 64 (binary64.withSign neg mag)).msb = neg := by
  have h' : mag ≤ 2047 * 2 ^ 52 := h
  have hs : binary64.withSign neg mag = (if neg then 2 ^ 63 else 0) + mag := rfl
  refine ⟨?_, ?_, ?_⟩
  · cases neg <;> simp [hs] <;> omega
  · rw [Bool.eq_false_iff, ne_eq, isNaN64]
    simp only [Bool.and_eq_true, decide_eq_true_eq, exp64_iff, frac64_iff, ne_eq, BitVec.toNat_ofNat, hs]
    cases neg <;> simp <;> omega
  · rw [msb64_eq, hs]
    cases neg <;> simp <;> omega

theorem round64_spec (neg : Bool) (num den : Nat) (exp : Int) :
    binary64.round neg num den exp < 2 ^ 64 ∧ isNaN64 (BitVec.ofNat 64 (binary64.round neg num den exp)) = false ∧
      (BitVec.ofNat 64 (binary64.round neg num den exp)).msb = neg := by
  rcases FloatFormat.round_cases binary64 (by decide) neg num den exp with e | ⟨m, hm, e⟩ <;> rw [e]
  · exact withSign64_spec _ _ (le_refl _)
  · exact withSign64_spec _ _ (by omega)

end Sys2Proof.Machine
end

