-- ==== Sys2Proof/Laws/Memory.lean ====
section
/-! SUPPORT. What the operations over the program byte space do: they keep the canonical form, and a canonical memory
reads as its byte sequence. -/

namespace Sys2Proof.Machine

open Sys2Proof

theorem Memory.length_cellsFrom (a : Nat) (bs : List Byte) : (Memory.cellsFrom a bs).length = bs.length := by
  induction bs generalizing a with
  | nil => rfl
  | cons b bs ih => simp [Memory.cellsFrom, ih]

theorem Memory.bytes_cellsFrom (a : Nat) (bs : List Byte) : Memory.bytes (Memory.cellsFrom a bs) = bs := by
  unfold Memory.bytes
  induction bs generalizing a with
  | nil => rfl
  | cons b bs ih => simp [Memory.cellsFrom, ih]

theorem Memory.read_cellsFrom (a n : Nat) (bs : List Byte) : Memory.read (Memory.cellsFrom a bs) (a + n) = bs[n]? := by
  induction bs generalizing a n with
  | nil => rfl
  | cons b bs ih =>
    cases n with
    | zero => simp [Memory.cellsFrom, Memory.read]
    | succ n =>
      have h : ¬ a = a + (n + 1) := by omega
      have h' : a + (n + 1) = a + 1 + n := by omega
      simp only [Memory.cellsFrom, Memory.read, if_neg h, List.getElem?_cons_succ]
      rw [h', ih]

/-- The length of a memory is the length of its program. -/
@[simp] theorem Memory.length_ofBytes (bs : List Byte) : (Memory.ofBytes bs).length = bs.length :=
  Memory.length_cellsFrom 0 bs

@[simp] theorem Memory.bytes_ofBytes (bs : List Byte) : Memory.bytes (Memory.ofBytes bs) = bs :=
  Memory.bytes_cellsFrom 0 bs

@[simp] theorem Memory.length_bytes (m : Memory) : m.bytes.length = m.length := by simp [Memory.bytes]

/-- A program reads back byte for byte, and nothing stands past its end. -/
@[simp] theorem Memory.read_ofBytes (bs : List Byte) (a : Nat) : Memory.read (Memory.ofBytes bs) a = bs[a]? := by
  have h := Memory.read_cellsFrom 0 a bs
  rwa [Nat.zero_add] at h

/-- Every laid-out byte sequence is canonical. -/
@[simp] theorem Memory.wf_ofBytes (bs : List Byte) : Memory.wf (Memory.ofBytes bs) = true := by simp [Memory.wf]

/-- A canonical memory is the layout of its own bytes. -/
theorem Memory.wf_iff (m : Memory) : m.wf = true ↔ m = Memory.ofBytes m.bytes := by simp [Memory.wf]

theorem Memory.wf_place (m : Memory) (a : Nat) (bs : List Byte) : (m.place a bs).wf = true := Memory.wf_ofBytes _

theorem Memory.read_of_wf (m : Memory) (h : m.wf = true) (a : Nat) : m.read a = m.bytes[a]? := by
  rw [Memory.wf_iff] at h
  rw [h]
  simp

/-- Equal readings make equal canonical memories. -/
theorem Memory.ext_of_wf (m n : Memory) (hm : m.wf = true) (hn : n.wf = true) (h : ∀ a, m.read a = n.read a) : m = n := by
  have hb : m.bytes = n.bytes := by
    apply List.ext_getElem?
    intro a
    rw [← Memory.read_of_wf m hm, ← Memory.read_of_wf n hn, h]
  rw [(Memory.wf_iff m).1 hm, (Memory.wf_iff n).1 hn, hb]

/-- The window at `a` is the next bytes of the program. -/
theorem Memory.window_of_wf (m : Memory) (h : m.wf = true) (a n : Nat) : m.window a n = (m.bytes.drop a).take n := by
  induction n generalizing a with
  | zero => simp [Memory.window]
  | succ n ih =>
    simp only [Memory.window, Memory.read_of_wf m h]
    by_cases hl : a < m.bytes.length
    · rw [List.getElem?_eq_getElem hl]
      simp only [ih]
      rw [List.drop_eq_getElem_cons hl, List.take_succ_cons]
    · have hl' : m.bytes.length ≤ a := by omega
      rw [List.getElem?_eq_none hl', List.drop_eq_nil_of_le hl']
      simp

/-- The program after reset is canonical. -/
theorem reset_prog_wf : State.reset.prog.wf = true := by decide

end Sys2Proof.Machine
end

