-- ==== Sys2Proof/Laws/State.lean ====
section
/-! SUPPORT. One lemma per field per update of the state, each true by rfl, so that no proof unfolds an update. -/

namespace Sys2Proof.Machine

/-- A benign stop and a fatal fault are one change of the state. -/
@[simp] theorem stopBenign_eq (c : StopCause) (off : Nat) (s : State) : stopBenign c off s = endStep c off s := rfl

@[simp] theorem raiseFault_eq (c : StopCause) (off : Nat) (s : State) : raiseFault c off s = endStep c off s := rfl

@[simp] theorem setReg_regs (i : Nat) (h : i < 32) (v : Value) (s : State) : (setReg i h v s).regs = s.regs.set i v h := rfl
@[simp] theorem setReg_pc (i : Nat) (h : i < 32) (v : Value) (s : State) : (setReg i h v s).pc = s.pc := rfl
@[simp] theorem setReg_prog (i : Nat) (h : i < 32) (v : Value) (s : State) : (setReg i h v s).prog = s.prog := rfl
@[simp] theorem setReg_runState (i : Nat) (h : i < 32) (v : Value) (s : State) : (setReg i h v s).runState = s.runState := rfl
@[simp] theorem setReg_stopCause (i : Nat) (h : i < 32) (v : Value) (s : State) : (setReg i h v s).stopCause = s.stopCause := rfl
@[simp] theorem setReg_stopAddr (i : Nat) (h : i < 32) (v : Value) (s : State) : (setReg i h v s).stopAddr = s.stopAddr := rfl
@[simp] theorem setReg_diag (i : Nat) (h : i < 32) (v : Value) (s : State) : (setReg i h v s).diag = s.diag := rfl
@[simp] theorem setReg_nanDraws (i : Nat) (h : i < 32) (v : Value) (s : State) : (setReg i h v s).nanDraws = s.nanDraws := rfl

@[simp] theorem takeDraws_regs (n : Nat) (s : State) : (takeDraws n s).regs = s.regs := rfl
@[simp] theorem takeDraws_pc (n : Nat) (s : State) : (takeDraws n s).pc = s.pc := rfl
@[simp] theorem takeDraws_prog (n : Nat) (s : State) : (takeDraws n s).prog = s.prog := rfl
@[simp] theorem takeDraws_runState (n : Nat) (s : State) : (takeDraws n s).runState = s.runState := rfl
@[simp] theorem takeDraws_stopCause (n : Nat) (s : State) : (takeDraws n s).stopCause = s.stopCause := rfl
@[simp] theorem takeDraws_stopAddr (n : Nat) (s : State) : (takeDraws n s).stopAddr = s.stopAddr := rfl
@[simp] theorem takeDraws_diag (n : Nat) (s : State) : (takeDraws n s).diag = s.diag := rfl
@[simp] theorem takeDraws_nanDraws (n : Nat) (s : State) : (takeDraws n s).nanDraws = s.nanDraws + n := rfl

@[simp] theorem advance_regs (n : Nat) (s : State) : (advance n s).regs = s.regs := rfl
@[simp] theorem advance_pc (n : Nat) (s : State) : (advance n s).pc = s.pc + n := rfl
@[simp] theorem advance_prog (n : Nat) (s : State) : (advance n s).prog = s.prog := rfl
@[simp] theorem advance_runState (n : Nat) (s : State) : (advance n s).runState = s.runState := rfl
@[simp] theorem advance_stopCause (n : Nat) (s : State) : (advance n s).stopCause = s.stopCause := rfl
@[simp] theorem advance_stopAddr (n : Nat) (s : State) : (advance n s).stopAddr = s.stopAddr := rfl
@[simp] theorem advance_diag (n : Nat) (s : State) : (advance n s).diag = s.diag := rfl
@[simp] theorem advance_nanDraws (n : Nat) (s : State) : (advance n s).nanDraws = s.nanDraws := rfl

@[simp] theorem complete_regs (s : State) : (complete s).regs = s.regs := rfl
@[simp] theorem complete_pc (s : State) : (complete s).pc = s.pc := rfl
@[simp] theorem complete_prog (s : State) : (complete s).prog = s.prog := rfl
@[simp] theorem complete_runState (s : State) : (complete s).runState = .running := rfl
@[simp] theorem complete_stopCause (s : State) : (complete s).stopCause = s.stopCause := rfl
@[simp] theorem complete_stopAddr (s : State) : (complete s).stopAddr = s.stopAddr := rfl
@[simp] theorem complete_diag (s : State) : (complete s).diag = s.diag := rfl
@[simp] theorem complete_nanDraws (s : State) : (complete s).nanDraws = s.nanDraws := rfl

@[simp] theorem emitDiag_regs (k : DiagKind) (off : Nat) (s : State) : (emitDiag k off s).regs = s.regs := rfl
@[simp] theorem emitDiag_pc (k : DiagKind) (off : Nat) (s : State) : (emitDiag k off s).pc = s.pc := rfl
@[simp] theorem emitDiag_prog (k : DiagKind) (off : Nat) (s : State) : (emitDiag k off s).prog = s.prog := rfl
@[simp] theorem emitDiag_runState (k : DiagKind) (off : Nat) (s : State) : (emitDiag k off s).runState = s.runState := rfl
@[simp] theorem emitDiag_stopCause (k : DiagKind) (off : Nat) (s : State) : (emitDiag k off s).stopCause = s.stopCause := rfl
@[simp] theorem emitDiag_stopAddr (k : DiagKind) (off : Nat) (s : State) : (emitDiag k off s).stopAddr = s.stopAddr := rfl
@[simp] theorem emitDiag_diag (k : DiagKind) (off : Nat) (s : State) : (emitDiag k off s).diag = s.diag ++ [⟨k, off⟩] := rfl
@[simp] theorem emitDiag_nanDraws (k : DiagKind) (off : Nat) (s : State) : (emitDiag k off s).nanDraws = s.nanDraws := rfl

@[simp] theorem endStep_regs (c : StopCause) (off : Nat) (s : State) : (endStep c off s).regs = s.regs := rfl
@[simp] theorem endStep_pc (c : StopCause) (off : Nat) (s : State) : (endStep c off s).pc = s.pc := rfl
@[simp] theorem endStep_prog (c : StopCause) (off : Nat) (s : State) : (endStep c off s).prog = s.prog := rfl
@[simp] theorem endStep_runState (c : StopCause) (off : Nat) (s : State) : (endStep c off s).runState = .stopped := rfl
@[simp] theorem endStep_stopCause (c : StopCause) (off : Nat) (s : State) : (endStep c off s).stopCause = c := rfl
@[simp] theorem endStep_stopAddr (c : StopCause) (off : Nat) (s : State) : (endStep c off s).stopAddr = off := rfl
@[simp] theorem endStep_diag (c : StopCause) (off : Nat) (s : State) : (endStep c off s).diag = s.diag := rfl
@[simp] theorem endStep_nanDraws (c : StopCause) (off : Nat) (s : State) : (endStep c off s).nanDraws = s.nanDraws := rfl

@[simp] theorem restart_regs (pc : Nat) (prog : Memory) (s : State) : (restart pc prog s).regs = s.regs := rfl
@[simp] theorem restart_pc (pc : Nat) (prog : Memory) (s : State) : (restart pc prog s).pc = pc := rfl
@[simp] theorem restart_prog (pc : Nat) (prog : Memory) (s : State) : (restart pc prog s).prog = prog := rfl
@[simp] theorem restart_runState (pc : Nat) (prog : Memory) (s : State) : (restart pc prog s).runState = .ready := rfl
@[simp] theorem restart_stopCause (pc : Nat) (prog : Memory) (s : State) : (restart pc prog s).stopCause = .none := rfl
@[simp] theorem restart_stopAddr (pc : Nat) (prog : Memory) (s : State) : (restart pc prog s).stopAddr = 0 := rfl
@[simp] theorem restart_diag (pc : Nat) (prog : Memory) (s : State) : (restart pc prog s).diag = s.diag := rfl
@[simp] theorem restart_nanDraws (pc : Nat) (prog : Memory) (s : State) : (restart pc prog s).nanDraws = s.nanDraws := rfl

end Sys2Proof.Machine
end

