-- ==== Sys2Proof/Laws/Ops.lean ====
section
/-! SUPPORT. One lemma per shared operation that says everything the operation can do. Proofs cite these and do not
unfold the operations. -/

namespace Sys2Proof.Machine

open Sys2Proof

theorem readReg_of_lt (i : Nat) (h : i < 32) (s : State) : readReg i s = some s.regs[i] := by
  simp [readReg, h]

theorem readReg_of_ge (i : Nat) (h : 32 ≤ i) (s : State) : readReg i s = none := by
  simp [readReg, h]

theorem readReg_eq_none_iff (i : Nat) (s : State) : readReg i s = none ↔ 32 ≤ i := by
  simp [readReg]

/-- A register reads as the file holds it, whatever else of the state differs. -/
theorem readReg_congr (i : Nat) (s t : State) (h : s.regs = t.regs) : readReg i s = readReg i t := by
  simp [readReg, h]

@[simp] theorem readReg_advance (i n : Nat) (s : State) : readReg i (advance n s) = readReg i s := rfl

theorem readReg_setReg_same (i : Nat) (h : i < 32) (v : Value) (s : State) : readReg i (setReg i h v s) = some v := by
  simp [readReg, h]

theorem readReg_setReg_other (i j : Nat) (h : i < 32) (hne : j ≠ i) (v : Value) (s : State) :
    readReg j (setReg i h v s) = readReg j s := by
  have : i ≠ j := fun e => hne e.symm
  simp [readReg, this]

theorem writeReg_of_lt (i : Nat) (h : i < 32) (v : Value) (s : State) : writeReg i v s = some (setReg i h v s) := by
  simp [writeReg, h]

theorem writeReg_of_ge (i : Nat) (h : 32 ≤ i) (v : Value) (s : State) : writeReg i v s = none := by
  simp [writeReg, Nat.not_lt.2 h]

/-- A destination write completes, or faults and writes nothing. -/
theorem writeResult_cases (rd : Byte) (v : Value) (draws off : Nat) (t : State) :
    (∃ h : rd.toNat < 32, writeResult rd v draws off t = complete (takeDraws draws (setReg rd.toNat h v t))) ∨
      (32 ≤ rd.toNat ∧ writeResult rd v draws off t = endStep .indexOutOfRange off t) := by
  rcases Nat.lt_or_ge rd.toNat 32 with h | h
  · exact .inl ⟨h, by simp [writeResult, writeReg_of_lt _ h]⟩
  · exact .inr ⟨h, by simp [writeResult, writeReg_of_ge _ h]⟩

theorem writeResult_of_lt (rd : Byte) (h : rd.toNat < 32) (v : Value) (draws off : Nat) (t : State) :
    writeResult rd v draws off t = complete (takeDraws draws (setReg rd.toNat h v t)) := by
  simp [writeResult, writeReg_of_lt _ h]

theorem writeResult_of_ge (rd : Byte) (h : 32 ≤ rd.toNat) (v : Value) (draws off : Nat) (t : State) :
    writeResult rd v draws off t = endStep .indexOutOfRange off t := by
  simp [writeResult, writeReg_of_ge _ h]

theorem runLoad_cases (rd : Byte) (v : Value) (n : Nat) (s : State) :
    (∃ h : rd.toNat < 32, runLoad rd v n s = complete (takeDraws 0 (setReg rd.toNat h v (advance n s)))) ∨
      (32 ≤ rd.toNat ∧ runLoad rd v n s = endStep .indexOutOfRange s.pc (advance n s)) :=
  writeResult_cases rd v 0 s.pc (advance n s)

/-- An integer operation never finds a mismatch. -/
theorem intResult_ne_mismatch (op : ArithOp) (k : IntKind) (a b : Int) : intResult op k a b ≠ .mismatch := by
  unfold intResult
  split
  · simp
  · split <;> simp

theorem floatResult32_ne_mismatch (op : ArithOp) (k : Nat) (x y : BitVec 32) : floatResult32 op k x y ≠ .mismatch := by
  unfold floatResult32
  split <;> simp

theorem floatResult64_ne_mismatch (op : ArithOp) (k : Nat) (x y : BitVec 64) : floatResult64 op k x y ≠ .mismatch := by
  unfold floatResult64
  split <;> simp

/-- The dispatch finds a mismatch exactly when the kinds are not the same non-None kind. -/
theorem arith_eq_mismatch_iff (op : ArithOp) (k : Nat) (va vb : Value) :
    arith op k va vb = .mismatch ↔ sameKind va vb = false := by
  cases va <;> cases vb <;>
    simp [arith, sameKind, Value.kind, intResult_ne_mismatch, floatResult32_ne_mismatch, floatResult64_ne_mismatch]

/-- On two values of one integer kind the dispatch is the integer operation of that kind. -/
theorem arith_of_asInt (op : ArithOp) (k : Nat) (va vb : Value) (K : IntKind) (a b : Int)
    (ha : va.asInt = some (K, a)) (hb : vb.asInt = some (K, b)) : arith op k va vb = intResult op K a b := by
  cases va <;> simp only [Value.asInt, Option.some.injEq, Prod.mk.injEq, reduceCtorEq] at ha <;>
    obtain ⟨rfl, rfl⟩ := ha <;> cases vb <;>
    simp only [Value.asInt, Option.some.injEq, Prod.mk.injEq, reduceCtorEq, false_and, true_and] at hb <;>
    subst hb <;> rfl

/-- What a three-register operation does once its sources are read. -/
theorem runR3_of_sources (op : ArithOp) (mismatch : Nat → State → State) (ra rb rd : Byte) (s : State) (va vb : Value)
    (ha : readReg ra.toNat s = some va) (hb : readReg rb.toNat s = some vb) :
    runR3 op mismatch ra rb rd s =
      match arith op s.nanDraws va vb with
      | .mismatch => mismatch s.pc (advance 4 s)
      | .fault c => endStep c s.pc (advance 4 s)
      | .value v draws => writeResult rd v draws s.pc (advance 4 s) := by
  have ha' : readReg ra.toNat (advance 4 s) = some va := ha
  have hb' : readReg rb.toNat (advance 4 s) = some vb := hb
  simp only [runR3]
  rw [ha', hb']
  rfl

/-- Everything a three-register operation can do, in the order of its checks (60_exceptions.md R227). -/
theorem runR3_cases (op : ArithOp) (mismatch : Nat → State → State) (ra rb rd : Byte) (s : State) :
    ((32 ≤ ra.toNat ∨ 32 ≤ rb.toNat) ∧
        runR3 op mismatch ra rb rd s = endStep .indexOutOfRange s.pc (advance 4 s)) ∨
      ∃ va vb, readReg ra.toNat s = some va ∧ readReg rb.toNat s = some vb ∧
        ((sameKind va vb = false ∧ runR3 op mismatch ra rb rd s = mismatch s.pc (advance 4 s)) ∨
          (∃ c, arith op s.nanDraws va vb = .fault c ∧
            runR3 op mismatch ra rb rd s = endStep c s.pc (advance 4 s)) ∨
          (∃ v draws, arith op s.nanDraws va vb = .value v draws ∧
            runR3 op mismatch ra rb rd s = writeResult rd v draws s.pc (advance 4 s))) := by
  rcases hva : readReg ra.toNat s with _ | va
  · exact .inl ⟨.inl ((readReg_eq_none_iff _ _).1 hva), by simp [runR3, hva]⟩
  · rcases hvb : readReg rb.toNat s with _ | vb
    · exact .inl ⟨.inr ((readReg_eq_none_iff _ _).1 hvb), by simp [runR3, hva, hvb]⟩
    · refine .inr ⟨va, vb, rfl, rfl, ?_⟩
      rw [runR3_of_sources op mismatch ra rb rd s va vb hva hvb]
      rcases hr : arith op s.nanDraws va vb with _ | c | ⟨v, d⟩
      · exact .inl ⟨(arith_eq_mismatch_iff _ _ _ _).1 hr, rfl⟩
      · exact .inr (.inl ⟨c, rfl, rfl⟩)
      · exact .inr (.inr ⟨v, d, rfl, rfl⟩)

/-- An arithmetic fault always has a cause. -/
theorem arith_fault_ne_none (op : ArithOp) (k : Nat) (va vb : Value) (c : StopCause) (h : arith op k va vb = .fault c) :
    c ≠ .none := by
  have int (K : IntKind) (a b : Int) (h : intResult op K a b = .fault c) : c ≠ .none := by
    unfold intResult at h
    split at h
    · cases h; simp
    · split at h <;> cases h; simp
  have f32 (x y : BitVec 32) (h : floatResult32 op k x y = .fault c) : c ≠ .none := by
    unfold floatResult32 at h
    split at h <;> cases h
  have f64 (x y : BitVec 64) (h : floatResult64 op k x y = .fault c) : c ≠ .none := by
    unfold floatResult64 at h
    split at h <;> cases h
  cases va <;> cases vb <;> first
    | exact int _ _ _ h
    | exact f32 _ _ h
    | exact f64 _ _ h
    | cases h

/-- The three shapes of an instruction's next state: a stop with a notice, a stop or fault without one, and a completion
that wrote the instruction's destination register and no other. -/
theorem exec_cases (i : Instr) (s : State) :
    (∃ c k, exec i s = .next (endStep c s.pc (emitDiag k s.pc (advance i.length s))) ∧ i.length = 1 ∧
        ((i = .halt ∧ c = .halted ∧ k = .haltNotice) ∨
          ∃ op, i = .illegal op ∧ c = .illegalOpcode ∧ k = .illegalNotice)) ∨
      (∃ c, c ≠ .none ∧ exec i s = .next (endStep c s.pc (advance i.length s)) ∧ 3 ≤ i.length) ∨
      (∃ rd h v d, exec i s = .next (complete (takeDraws d (setReg rd.toNat h v (advance i.length s)))) ∧ 3 ≤ i.length ∧
        i.hasDest rd) := by
  have load (rd : Byte) (v : Value) (hd : i.loaded = some (rd, v)) (hn : 3 ≤ i.length)
      (he : exec i s = .next (runLoad rd v i.length s)) :
      (∃ c, c ≠ .none ∧ exec i s = .next (endStep c s.pc (advance i.length s)) ∧ 3 ≤ i.length) ∨
        (∃ rd h v d, exec i s = .next (complete (takeDraws d (setReg rd.toNat h v (advance i.length s)))) ∧ 3 ≤ i.length ∧
          i.hasDest rd) := by
    rw [he]
    rcases runLoad_cases rd v i.length s with ⟨h, e⟩ | ⟨_, e⟩ <;> rw [e]
    · exact .inr ⟨_, h, v, 0, rfl, hn, .inl ⟨v, hd⟩⟩
    · exact .inl ⟨.indexOutOfRange, by simp, rfl, hn⟩
  have r3 (op : ArithOp) (c : StopCause) (hc : c ≠ .none) (ra rb rd : Byte) (hd : i = ArithOp.instr op ra rb rd)
      (hl : i.length = 4) (he : exec i s = .next (runR3 op (endStep c) ra rb rd s)) :
      (∃ c, c ≠ .none ∧ exec i s = .next (endStep c s.pc (advance i.length s)) ∧ 3 ≤ i.length) ∨
        (∃ rd h v d, exec i s = .next (complete (takeDraws d (setReg rd.toNat h v (advance i.length s)))) ∧ 3 ≤ i.length ∧
          i.hasDest rd) := by
    rw [he, hl]
    rcases runR3_cases op (endStep c) ra rb rd s with ⟨_, e⟩ | ⟨va, vb, _, _, ⟨_, e⟩ | ⟨c', hf, e⟩ | ⟨v, d, _, e⟩⟩
    · exact .inl ⟨.indexOutOfRange, by simp, by rw [e], by omega⟩
    · exact .inl ⟨c, hc, by rw [e], by omega⟩
    · exact .inl ⟨c', arith_fault_ne_none _ _ _ _ _ hf, by rw [e], by omega⟩
    · rcases writeResult_cases rd v d s.pc (advance 4 s) with ⟨h, w⟩ | ⟨_, w⟩
      · exact .inr ⟨_, h, v, d, by rw [e, w], by omega, .inr ⟨op, ra, rb, hd⟩⟩
      · exact .inl ⟨.indexOutOfRange, by simp, by rw [e, w], by omega⟩
  cases i with
  | halt => exact .inl ⟨_, _, rfl, rfl, .inl ⟨rfl, rfl, rfl⟩⟩
  | illegal op => exact .inl ⟨_, _, rfl, rfl, .inr ⟨op, rfl, rfl, rfl⟩⟩
  | loadU8 rd imm => exact .inr (load rd (.u8 imm) rfl (by simp [Instr.length]) rfl)
  | loadI8 rd imm => exact .inr (load rd (.i8 imm) rfl (by simp [Instr.length]) rfl)
  | loadU16 rd imm => exact .inr (load rd (.u16 imm) rfl (by simp [Instr.length]) rfl)
  | loadI16 rd imm => exact .inr (load rd (.i16 imm) rfl (by simp [Instr.length]) rfl)
  | loadU32 rd imm => exact .inr (load rd (.u32 imm) rfl (by simp [Instr.length]) rfl)
  | loadI32 rd imm => exact .inr (load rd (.i32 imm) rfl (by simp [Instr.length]) rfl)
  | loadU64 rd imm => exact .inr (load rd (.u64 imm) rfl (by simp [Instr.length]) rfl)
  | loadI64 rd imm => exact .inr (load rd (.i64 imm) rfl (by simp [Instr.length]) rfl)
  | loadF32 rd imm => exact .inr (load rd (.f32 imm) rfl (by simp [Instr.length]) rfl)
  | loadF64 rd imm => exact .inr (load rd (.f64 imm) rfl (by simp [Instr.length]) rfl)
  | loadNone rd => exact .inr (load rd .none rfl (by simp [Instr.length]) rfl)
  | add ra rb rd => exact .inr (r3 .add .addSubTypeMismatch (by simp) ra rb rd rfl rfl rfl)
  | sub ra rb rd => exact .inr (r3 .sub .addSubTypeMismatch (by simp) ra rb rd rfl rfl rfl)
  | mul ra rb rd => exact .inr (r3 .mul .mulDivTypeMismatch (by simp) ra rb rd rfl rfl rfl)
  | div ra rb rd => exact .inr (r3 .div .mulDivTypeMismatch (by simp) ra rb rd rfl rfl rfl)

end Sys2Proof.Machine
end

