-- ==== Sys2Proof/Laws/PerInstr.lean ====
section
/-! SUPPORT. Statements about every instruction, proved per constructor: the encoding of an instruction is as long as
its length says (30_encoding.md R80). -/

namespace Sys2Proof.Laws.EncodedLength

open Sys2Proof

/-- The encoding of an instruction has the instruction's length. -/
def Statement (i : Instr) : Prop := (encode i).length = i.length

theorem halt : Statement .halt := rfl
theorem loadU8 (rd : Byte) (imm : BitVec 8) : Statement (.loadU8 rd imm) := by simp [Statement, encode, Instr.length]
theorem loadI8 (rd : Byte) (imm : BitVec 8) : Statement (.loadI8 rd imm) := by simp [Statement, encode, Instr.length]
theorem loadU16 (rd : Byte) (imm : BitVec 16) : Statement (.loadU16 rd imm) := by simp [Statement, encode, Instr.length]
theorem loadI16 (rd : Byte) (imm : BitVec 16) : Statement (.loadI16 rd imm) := by simp [Statement, encode, Instr.length]
theorem loadU32 (rd : Byte) (imm : BitVec 32) : Statement (.loadU32 rd imm) := by simp [Statement, encode, Instr.length]
theorem loadI32 (rd : Byte) (imm : BitVec 32) : Statement (.loadI32 rd imm) := by simp [Statement, encode, Instr.length]
theorem loadU64 (rd : Byte) (imm : BitVec 64) : Statement (.loadU64 rd imm) := by simp [Statement, encode, Instr.length]
theorem loadI64 (rd : Byte) (imm : BitVec 64) : Statement (.loadI64 rd imm) := by simp [Statement, encode, Instr.length]
theorem loadF32 (rd : Byte) (imm : BitVec 32) : Statement (.loadF32 rd imm) := by simp [Statement, encode, Instr.length]
theorem loadF64 (rd : Byte) (imm : BitVec 64) : Statement (.loadF64 rd imm) := by simp [Statement, encode, Instr.length]
theorem loadNone (rd : Byte) : Statement (.loadNone rd) := rfl
theorem add (ra rb rd : Byte) : Statement (.add ra rb rd) := rfl
theorem sub (ra rb rd : Byte) : Statement (.sub ra rb rd) := rfl
theorem mul (ra rb rd : Byte) : Statement (.mul ra rb rd) := rfl
theorem div (ra rb rd : Byte) : Statement (.div ra rb rd) := rfl
theorem illegal (op : Byte) : Statement (.illegal op) := rfl

end Sys2Proof.Laws.EncodedLength
end

