-- ==== Sys2Proof/Laws/Step.lean ====
section
/-! SUPPORT. Everything a fetch, a step and the run driver can do. -/

namespace Sys2Proof.Machine

open Sys2Proof

/-- The five outcomes of the checks and the decode of a step, in their order. -/
theorem fetch_cases (s : State) :
    (s.runState = .stopped ∧ fetch s = .ended s) ∨
      (s.runState ≠ .stopped ∧ s.prog.length = 0 ∧ fetch s = .ended (endStep .emptyProgram 0 s)) ∨
      (s.runState ≠ .stopped ∧ 1 ≤ s.prog.length ∧ s.prog.length ≤ s.pc + 1 ∧
        fetch s = .ended (endStep .endOfProgram s.pc s)) ∨
      (s.runState ≠ .stopped ∧ s.pc + 2 ≤ s.prog.length ∧
        ((∃ e, decode (s.prog.window s.pc maxLength) = .error e ∧
            fetch s = .ended (endStep .decodeOutOfBounds s.pc s)) ∨
          ∃ i, decode (s.prog.window s.pc maxLength) = .ok i ∧ fetch s = .runs i)) := by
  by_cases hs : s.runState = .stopped
  · exact .inl ⟨hs, by simp [fetch, hs]⟩
  by_cases h0 : s.prog.length = 0
  · exact .inr (.inl ⟨hs, h0, by simp [fetch, hs, h0]⟩)
  by_cases h1 : s.prog.length - 1 ≤ s.pc
  · refine .inr (.inr (.inl ⟨hs, by omega, by omega, ?_⟩))
    simp only [fetch, if_neg hs, if_neg h0, if_pos h1, stopBenign_eq]
  · refine .inr (.inr (.inr ⟨hs, by omega, ?_⟩))
    rcases hd : decode (s.prog.window s.pc maxLength) with e | i
    · exact .inl ⟨e, rfl, by simp only [fetch, if_neg hs, if_neg h0, if_neg h1, hd, raiseFault_eq]⟩
    · exact .inr ⟨i, rfl, by simp only [fetch, if_neg hs, if_neg h0, if_neg h1, hd]⟩

theorem step_of_ended (s t : State) (h : fetch s = .ended t) : step s = .next t := by simp [step, h]

theorem step_of_runs (s : State) (i : Instr) (h : fetch s = .runs i) : step s = exec i s := by simp [step, h]

/-- Everything a step can do: it always answers a next state, of one of these shapes. -/
theorem step_cases (s : State) :
    (s.runState = .stopped ∧ step s = .next s) ∨
      (s.runState ≠ .stopped ∧ s.prog.length = 0 ∧ step s = .next (endStep .emptyProgram 0 s)) ∨
      (s.runState ≠ .stopped ∧ 1 ≤ s.prog.length ∧ s.prog.length ≤ s.pc + 1 ∧
        step s = .next (endStep .endOfProgram s.pc s)) ∨
      (s.runState ≠ .stopped ∧ s.pc + 2 ≤ s.prog.length ∧
        ((∃ e, decode (s.prog.window s.pc maxLength) = .error e ∧
            step s = .next (endStep .decodeOutOfBounds s.pc s)) ∨
          ∃ i, decode (s.prog.window s.pc maxLength) = .ok i ∧ step s = exec i s)) := by
  rcases fetch_cases s with ⟨h, f⟩ | ⟨h, h0, f⟩ | ⟨h, h0, h1, f⟩ | ⟨h, h0, ⟨e, hd, f⟩ | ⟨i, hd, f⟩⟩
  · exact .inl ⟨h, step_of_ended s _ f⟩
  · exact .inr (.inl ⟨h, h0, step_of_ended s _ f⟩)
  · exact .inr (.inr (.inl ⟨h, h0, h1, step_of_ended s _ f⟩))
  · exact .inr (.inr (.inr ⟨h, h0, .inl ⟨e, hd, step_of_ended s _ f⟩⟩))
  · exact .inr (.inr (.inr ⟨h, h0, .inr ⟨i, hd, step_of_runs s i f⟩⟩))

/-- The run driver stops at the first stopping step. -/
theorem runSteps_succ (k : Nat) (s t : State) (h : step s = .next t) :
    runSteps (k + 1) s = if shouldStop t then .next t else runSteps k t := by
  simp only [runSteps, h]

end Sys2Proof.Machine
end

