-- ==== Sys2Proof/Tests/Slice0.lean ====
section
/-! SUPPORT. Tests of one step or one operation each, their expected results from 95_test_vectors.md and the worked
examples of 41_halt_illegal.md to 43_arith.md, and one witness for the hypotheses of every statement that has some. -/

-- The tests are elaborated one after another: side by side, each waits on a thread of its own, and compiling them all
-- in one text then takes more memory than the check allows.
set_option Elab.async false

namespace Sys2Proof.Tests

open Sys2Proof Sys2Proof.Machine

/-- The engine ready with a program and some registers written by the host. -/
def start (bs : List Byte) (rs : List (Nat × Value)) : State :=
  { State.reset with
    prog := Memory.ofBytes bs
    regs := rs.foldl (fun v r => v.setIfInBounds r.1 r.2) State.reset.regs }

/-- The state of a next outcome, the given state otherwise. -/
def nextOf (s : State) : Host.Outcome State Fault Refusal → State
  | .next t => t
  | .refused _ => s

/-- One step of a program, seen at one register, `pc`, `RUN_STATE`, `STOP_CAUSE` and `STOP_ADDR`. -/
def view (i : Nat) (s : State) : Option Value × Nat × RunState × StopCause × Nat :=
  let t := nextOf s (step s)
  (readReg i t, t.pc, t.runState, t.stopCause, t.stopAddr)

/-! ## Well-formedness, decoding and the table -/

theorem test_wf_refuses_illegal_below_six : (Instr.illegal 0x05).wf = false := by decide
theorem test_wf_accepts_illegal_from_six : (Instr.illegal 0x06).wf = true := by decide

theorem test_decode_halt : decode [0x00] = .ok .halt := by decide
theorem test_decode_loadU8 : decode [0x01, 0x03, 0x00, 0xFF] = .ok (.loadU8 3 255) := by decide
theorem test_decode_loadI8 : decode [0x01, 0x00, 0x01, 0xFB] = .ok (.loadI8 0 (-5)) := by decide
theorem test_decode_loadU16 : decode [0x01, 0x00, 0x02, 0x12, 0x34] = .ok (.loadU16 0 4660) := by decide
theorem test_decode_loadI16 : decode [0x01, 0x00, 0x03, 0xFF, 0xFE] = .ok (.loadI16 0 (-2)) := by decide
theorem test_decode_loadU32 : decode [0x01, 0x00, 0x04, 0x78, 0x56, 0x34, 0x12] = .ok (.loadU32 0 305419896) := by decide
theorem test_decode_loadI32 : decode [0x01, 0x00, 0x05, 0xF8, 0xFF, 0xFF, 0xFF] = .ok (.loadI32 0 (-8)) := by decide
theorem test_decode_loadU64 : decode [0x01, 0x02, 0x06, 0x01, 0, 0, 0, 0, 0, 0, 0] = .ok (.loadU64 2 1) := by decide
theorem test_decode_loadI64 : decode [0x01, 0, 0x07, 0xFE, 0xFF, 0xFF, 0xFF, 0xFF, 0xFF, 0xFF, 0xFF] =
    .ok (.loadI64 0 (-2)) := by decide
theorem test_decode_loadF32 : decode [0x01, 0x00, 0x08, 0x00, 0x00, 0xBC, 0x41] = .ok (.loadF32 0 0x41BC0000) := by decide
theorem test_decode_loadF64 : decode [0x01, 0x00, 0x09, 0, 0, 0, 0, 0, 0, 0xF8, 0x3F] =
    .ok (.loadF64 0 0x3FF8000000000000) := by decide
theorem test_decode_loadNone : decode [0x01, 0x05, 0xFF] = .ok (.loadNone 5) := by decide
theorem test_decode_add : decode [0x02, 0x00, 0x01, 0x02] = .ok (.add 0 1 2) := by decide
theorem test_decode_sub : decode [0x03, 0x00, 0x01, 0x02] = .ok (.sub 0 1 2) := by decide
theorem test_decode_mul : decode [0x04, 0x00, 0x01, 0x02] = .ok (.mul 0 1 2) := by decide
theorem test_decode_div : decode [0x05, 0x03, 0x04, 0x05] = .ok (.div 3 4 5) := by decide
theorem test_decode_illegal : decode [0x80] = .ok (.illegal 0x80) := by decide
theorem test_decode_empty : decode [] = .error .outOfBounds := by decide
theorem test_encode_payload_orders : encode (.loadI16 0 (-2)) = [1, 0, 3, 0xFF, 0xFE] ∧
    encode (.loadU32 0 305419896) = [1, 0, 4, 0x78, 0x56, 0x34, 0x12] := by decide
/-- The table word of LOAD.U16 has its three selecting bytes only; the payload bytes are 0. -/
theorem test_decodeTableWord_loadU16 : decodeTableWord 24 0x020001 = some (.loadU16 0 0) := by decide
theorem test_withFetchWord_runs_loadU16 :
    step (State.reset.withFetchWord 24 0x020001) = exec (.loadU16 0 0) (State.reset.withFetchWord 24 0x020001) := rfl
theorem test_text : (Instr.loadI32 0 (-8)).text = "Load(r0, I32(-8))" ∧ (Instr.add 0 1 2).text = "Add(r0, r1, r2)" := by
  decide +kernel

/-! ## The range table of 10_state.md R23 -/

theorem test_integer_ranges : IntKind.lo .i8 = -128 ∧ IntKind.hi .i8 = 127 ∧ IntKind.hi .u16 = 65535 ∧
    IntKind.lo .i32 = -2147483648 ∧ IntKind.hi .u64 = 18446744073709551615 ∧
    IntKind.lo .i64 = -9223372036854775808 := by decide

/-! ## HALT, ILLEGAL, LOAD (R140, R141, V15 to V31) -/

theorem test_halt : view 0 (start [0x00, 0xAB, 0xCD] []) = (some (.u8 0), 1, .stopped, .halted, 0) := by decide +kernel
theorem test_halt_notice : (nextOf State.reset (step (start [0x00, 0x00] []))).diag = [⟨.haltNotice, 0⟩] := by decide +kernel
theorem test_illegal : view 0 (start [0xFF, 0x01] []) = (some (.u8 0), 1, .stopped, .illegalOpcode, 0) := by decide +kernel
theorem test_illegal_notice : (nextOf State.reset (step (start [0x07, 0x00] []))).diag = [⟨.illegalNotice, 0⟩] := by
  decide +kernel
theorem test_loadU8 : view 3 (start [1, 3, 0, 0xFF, 0] []) = (some (.u8 255), 4, .running, .none, 0) := by decide +kernel
theorem test_loadU8_bad_index : view 0 (start [1, 0x20, 0, 5, 0] []) = (some (.u8 0), 4, .stopped, .indexOutOfRange, 0) := by
  decide +kernel
theorem test_loadI8 : view 0 (start [1, 0, 1, 0x80, 0] []) = (some (.i8 (-128)), 4, .running, .none, 0) := by decide +kernel
theorem test_loadU16 : view 0 (start [1, 0, 2, 0x12, 0x34, 0] []) = (some (.u16 4660), 5, .running, .none, 0) := by
  decide +kernel
theorem test_loadI16 : view 0 (start [1, 0, 3, 0x00, 0x80, 0] []) = (some (.i16 128), 5, .running, .none, 0) := by
  decide +kernel
theorem test_loadU32 : view 0 (start [1, 0, 4, 0xFF, 0xFF, 0xFF, 0xFF, 0] []) =
    (some (.u32 4294967295), 7, .running, .none, 0) := by decide +kernel
theorem test_loadI32 : view 0 (start [1, 0, 5, 0, 0, 0, 0x80, 0] []) =
    (some (.i32 (-2147483648)), 7, .running, .none, 0) := by decide +kernel
theorem test_loadU64 : view 2 (start [1, 2, 6, 1, 0, 0, 0, 0, 0, 0, 0, 0] []) =
    (some (.u64 1), 11, .running, .none, 0) := by decide +kernel
theorem test_loadI64 : view 0 (start [1, 0, 7, 0, 0, 0, 0, 0, 0, 0, 0x80, 0] []) =
    (some (.i64 (-9223372036854775808)), 11, .running, .none, 0) := by decide +kernel
/-- A signalling NaN pattern is kept as it is (V26). -/
theorem test_loadF32 : view 0 (start [1, 0, 8, 1, 0, 0x80, 0x7F, 0] []) =
    (some (.f32 0x7F800001), 7, .running, .none, 0) := by decide +kernel
theorem test_loadF64 : view 0 (start [1, 0, 9, 0, 0, 0, 0, 0, 0, 0xF0, 0x7F, 0] [(0, .u8 9)]) =
    (some (.f64 0x7FF0000000000000), 11, .running, .none, 0) := by decide +kernel
theorem test_loadNone : view 5 (start [1, 5, 0xFF, 0] []) = (some .none, 3, .running, .none, 0) := by decide +kernel
theorem test_loadNone_bad_index : view 0 (start [1, 0xFF, 0x0A, 0] []) =
    (some (.u8 0), 3, .stopped, .indexOutOfRange, 0) := by decide +kernel

/-! ## The step's own ends (V1, V2, V4, V5, V7) -/

theorem test_empty_program : view 0 State.reset = (some (.u8 0), 0, .stopped, .emptyProgram, 0) := by decide +kernel
theorem test_last_byte_never_decoded : view 0 (start [0x00] []) = (some (.u8 0), 0, .stopped, .endOfProgram, 0) := by
  decide +kernel
theorem test_missing_tag : view 0 (start [1, 0] []) = (some (.u8 0), 0, .stopped, .decodeOutOfBounds, 0) := by decide +kernel
theorem test_truncated_payload : view 0 (start [1, 0, 5, 0xF8, 0xFF, 0xFF] []) =
    (some (.u8 0), 0, .stopped, .decodeOutOfBounds, 0) := by decide +kernel

/-! ## ADD, SUB, MUL, DIV (V33 to V92) -/

theorem test_add_same_register : view 0 (start [2, 0, 0, 0, 0] [(0, .u8 3)]) = (some (.u8 6), 4, .running, .none, 0) := by
  decide +kernel
theorem test_add_overflow_before_destination : view 2 (start [2, 0, 1, 0x20, 0] [(0, .u8 200), (1, .u8 56)]) =
    (some (.u8 0), 4, .stopped, .overflow, 0) := by decide +kernel
theorem test_sub_order : view 2 (start [3, 0, 1, 2, 0] [(0, .i32 (-8)), (1, .i32 8)]) =
    (some (.i32 (-16)), 4, .running, .none, 0) := by decide +kernel
theorem test_sub_below_zero : view 2 (start [3, 0, 1, 2, 0] [(0, .u8 0), (1, .u8 1)]) =
    (some (.u8 0), 4, .stopped, .overflow, 0) := by decide +kernel
theorem test_mul_signs : view 2 (start [4, 0, 1, 2, 0] [(0, .i8 (-64)), (1, .i8 2)]) =
    (some (.i8 (-128)), 4, .running, .none, 0) := by decide +kernel
theorem test_mul_mismatch_before_destination : view 2 (start [4, 0, 1, 0xFF, 0] [(0, .u8 1), (1, .i8 1)]) =
    (some (.u8 0), 4, .stopped, .mulDivTypeMismatch, 0) := by decide +kernel
theorem test_div_toward_zero : view 2 (start [5, 0, 1, 2, 0] [(0, .i32 (-7)), (1, .i32 2)]) =
    (some (.i32 (-3)), 4, .running, .none, 0) := by decide +kernel
theorem test_div_least_by_minus_one : view 2 (start [5, 0, 1, 2, 0] [(0, .i8 (-128)), (1, .i8 (-1))]) =
    (some (.u8 0), 4, .stopped, .overflow, 0) := by decide +kernel

/-! ## Floating point (V43 to V46, V59, V61, V87, V90) -/

theorem test_fadd32 : floatOp32 .add 0x3DCCCCCD 0x3E4CCCCD = some 0x3E99999A ∧
    floatOp32 .add 0x7F7FFFFF 0x7F7FFFFF = some 0x7F800000 := by decide +kernel
theorem test_fadd64 : floatOp64 .add 0x3FB999999999999A 0x3FC999999999999A = some 0x3FD3333333333334 := by decide +kernel
theorem test_fadd_zeros : floatOp32 .add 0x80000000 0x00000000 = some 0x00000000 ∧
    floatOp32 .sub 0x80000000 0x00000000 = some 0x80000000 := by decide +kernel
theorem test_fmul32 : floatOp32 .mul 0x41BC0000 0x420928F6 = some 0x44497429 := by decide +kernel
theorem test_fdiv : floatOp32 .div 0x3F800000 0x80000000 = some 0xFF800000 ∧ floatOp32 .div 0 0 = none ∧
    floatOp64 .div 0x4024000000000000 0x4010000000000000 = some 0x4004000000000000 := by decide +kernel

/-! ## The host interface (V93 to V102) -/

theorem test_host_views : Value.toHost (.i8 (-1)) = (1, 0xFF) ∧ Value.toHost (.f32 0x41BC0000) = (8, 0x41BC0000) ∧
    Value.toHost .none = (15, 0) ∧ Value.ofHost 0 0x1FF = some (.u8 255) ∧ Value.ofHost 10 0 = none := by decide
theorem test_setProg_while_running : hostSetProg [0, 0] { start [1, 0, 0, 5, 0, 0] [] with runState := .running } =
    ({ start [1, 0, 0, 5, 0, 0] [] with runState := .running }, .error) := by
  simp [hostSetProg]
/-- V9: a LOAD, then a HALT at offset 4. -/
theorem test_run : (nextOf State.reset (run (start [1, 0, 0, 5, 0, 0] []))).pc = 5 ∧
    (nextOf State.reset (run (start [1, 0, 0, 5, 0, 0] []))).diag = [⟨.haltNotice, 4⟩] := by decide +kernel

/-! ## Witnesses: a concrete state and operands that meet the hypotheses of each statement together -/

/-- A small program, ready to run. -/
def small : State := start [2, 0, 1, 2, 0] [(0, .u8 200), (1, .u8 55)]

theorem small_inv : small.Inv := by
  constructor <;> decide

/-- `small` after it was stopped by the host's view of a HALT. -/
def halted : State := { small with runState := .stopped, stopCause := .halted }

theorem witness_StepKeepsInvariant : small.Inv ∧ ∃ t, step small = .next t := ⟨small_inv, _, rfl⟩
theorem witness_HostOperationKeepsInvariant : small.Inv ∧ ∃ t r, hostOp .run small = .next (t, r) := ⟨small_inv, _, _, rfl⟩
theorem witness_ReachableStatesAreBounded : Reachable State.reset := Reachable.reset
theorem witness_DecodeOfEncodeIsIdentity : (Instr.illegal 0x06).wf = true := by decide
theorem witness_DecodedBytesAreTheEncoding : decode [1, 5, 0x0A] = .ok (.loadNone 5) ∧
    decode [1, 5, 0xFF, 7] = .ok (.loadNone 5) ∧ decode [2, 0, 1, 0x20, 9] = .ok (.add 0 1 0x20) := by decide
theorem witness_DecodeFailsOnlyWhenTruncated : decode [0x01, 0x00] = .error .outOfBounds ∧
    decode [0x01, 0, 0x05, 1, 2, 3] = .error .outOfBounds ∧ decode [0x05, 0, 1] = .error .outOfBounds ∧
    decode [0x01, 0, 0x05, 1, 2, 3, 4] ≠ .error .outOfBounds := by decide
theorem witness_TypeTagMapDecodes : 0x0A ≤ (0x0A : Byte).toNat ∧ 0x0A ≤ (0xFF : Byte).toNat := by decide
theorem witness_IllegalSpaceDecodesAndStops : 0x06 ≤ (0x06 : Byte).toNat ∧ 0x06 ≤ (0xFF : Byte).toNat := by decide
theorem witness_OpcodeTableSelectsTheDecodedRow : decode [1, 0, 9, 0, 0, 0, 0, 0, 0, 0, 0] = .ok (.loadF64 0 0) := by decide
theorem witness_StepRunsTheDecodedInstruction : small.runState ≠ .stopped ∧ small.prog.wf = true ∧
    small.pc + 2 ≤ small.prog.length ∧ decode (small.prog.bytes.drop small.pc) = .ok (.add 0 1 2) := by decide
theorem witness_EmptyProgramStepFaults : State.reset.runState ≠ .stopped ∧ State.reset.prog.length = 0 := by decide
theorem witness_EndOfProgramStopsWithoutDecoding : (start [0] []).runState ≠ .stopped ∧ 1 ≤ (start [0] []).prog.length ∧
    (start [0] []).prog.length - 1 ≤ (start [0] []).pc := by decide
theorem witness_TruncatedInstructionFaults : (start [2, 0, 1] []).runState ≠ .stopped ∧
    (start [2, 0, 1] []).prog.wf = true ∧ (start [2, 0, 1] []).pc + 2 ≤ (start [2, 0, 1] []).prog.length ∧
    decode ((start [2, 0, 1] []).prog.bytes.drop (start [2, 0, 1] []).pc) = .error .outOfBounds := by decide
theorem witness_EveryStepAnswersNext : halted.runState = .stopped ∧ small.runState ≠ .stopped := by decide
theorem witness_OnlyLoadAndArithmeticComplete : (∃ t, exec (.loadU8 31 7) small = .next t ∧ t.runState = .running) ∧
    ∃ t, exec .halt small = .next t ∧ t.runState = .stopped := ⟨⟨_, rfl, rfl⟩, _, rfl, rfl⟩
theorem witness_CounterAdvancesByTheInstruction : ∃ t, exec (.loadNone 0x20) small = .next t := ⟨_, rfl⟩
theorem witness_CounterAdvancesByTheInstruction_step : small.runState ≠ .stopped ∧ small.prog.wf = true ∧
    small.pc + 2 ≤ small.prog.length ∧ decode (small.prog.bytes.drop small.pc) = .ok (.add 0 1 2) ∧
    ∃ t, step small = .next t := ⟨by decide, by decide, by decide, by decide, _, rfl⟩
theorem witness_CounterAdvancesByTheInstruction_forms : Instr.add 0 1 2 = ArithOp.instr .add 0 1 2 ∧
    Instr.loadU16 1 0x0102 = loadOf 1 2 [1, 2] := by decide
theorem witness_InstructionsNeverWriteTheProgram : ∃ t, exec (.loadU64 0 1) small = .next t := ⟨_, rfl⟩
theorem witness_StepWritesAtMostOneRegister :
    (∃ t, step small = .next t ∧ readReg 2 t = some (.u8 255)) ∧
      decode (small.prog.window small.pc maxLength) = .ok (.add 0 1 2) ∧ (Instr.add 0 1 2).hasDest 2 ∧
      ∃ t, step State.reset = .next t :=
  ⟨⟨_, rfl, by decide +kernel⟩, by decide, .inr ⟨.add, 0, 1, rfl⟩, _, rfl⟩
theorem witness_StoppingStepWritesNoRegister : ∃ t, step (start [0, 0] []) = .next t ∧ t.runState = .stopped :=
  ⟨_, rfl, by decide +kernel⟩
theorem witness_OnlyHaltAndIllegalEmitNotices : (∃ t, step (start [0, 0] []) = .next t ∧ t.diag = [⟨.haltNotice, 0⟩]) ∧
    (∃ t, step (start [6, 0] []) = .next t ∧ t.diag = [⟨.illegalNotice, 0⟩]) ∧
    ∃ t, step small = .next t ∧ t.diag = small.diag :=
  ⟨⟨_, rfl, by decide +kernel⟩, ⟨_, rfl, by decide +kernel⟩, _, rfl, by decide +kernel⟩
theorem witness_InstructionsDoNotObserveStatus : (∃ t, exec (.add 0 1 2) small = .next t) ∧
    ∃ u, exec (.add 0 1 2)
      { small with pc := 9, prog := [], runState := .stopped, stopCause := .halted, stopAddr := 3,
                   diag := [⟨.haltNotice, 1⟩] } = .next u :=
  ⟨⟨_, rfl⟩, _, rfl⟩
theorem witness_InstructionsDoNotObserveStatus_stopped :
    ∃ t, exec .halt { small with stopCause := .overflow } = .next t ∧ t.runState = .stopped := ⟨_, rfl, rfl⟩
theorem witness_LoadWritesItsTypedImmediate : (Instr.loadI16 31 5).loaded = some (31, .i16 5) ∧ (31 : Byte).toNat < 32 := by
  decide
theorem witness_LoadIndexOutOfRangeFaults : (Instr.loadNone 0x20).loaded = some (0x20, .none) ∧ 32 ≤ (0x20 : Byte).toNat := by
  decide
theorem witness_StepLoadsNarrowPayloads : (31 : Byte).toNat < 32 ∧
    (start [1, 31, 0, 9] []).runState ≠ .stopped ∧ (start [1, 31, 0, 9] []).prog.wf = true ∧
    (start [1, 31, 0, 9] []).prog.bytes.drop 0 = [1, 31, 0, 9] ∧
    (start [1, 31, 1, 9] []).prog.bytes.drop 0 = [1, 31, 1, 9] ∧
    (start [1, 31, 2, 9, 8] []).prog.bytes.drop 0 = [1, 31, 2, 9, 8] ∧
    (start [1, 31, 3, 9, 8] []).prog.bytes.drop 0 = [1, 31, 3, 9, 8] ∧
    (start [1, 31, 0x0A] []).prog.bytes.drop 0 = [1, 31, 0x0A] ∧ 0x0A ≤ (0x0A : Byte).toNat := by decide
theorem witness_StepLoadsWidePayloads : (0 : Byte).toNat < 32 ∧
    (start [1, 0, 4, 1, 2, 3, 4] []).runState ≠ .stopped ∧ (start [1, 0, 4, 1, 2, 3, 4] []).prog.wf = true ∧
    (start [1, 0, 4, 1, 2, 3, 4] []).prog.bytes.drop 0 = [1, 0, 4, 1, 2, 3, 4] ∧
    (start [1, 0, 5, 1, 2, 3, 4] []).prog.bytes.drop 0 = [1, 0, 5, 1, 2, 3, 4] ∧
    (start [1, 0, 8, 1, 2, 3, 4] []).prog.bytes.drop 0 = [1, 0, 8, 1, 2, 3, 4] ∧
    (start [1, 0, 6, 1, 2, 3, 4, 5, 6, 7, 8] []).prog.bytes.drop 0 = [1, 0, 6, 1, 2, 3, 4, 5, 6, 7, 8] ∧
    (start [1, 0, 7, 1, 2, 3, 4, 5, 6, 7, 8] []).prog.bytes.drop 0 = [1, 0, 7, 1, 2, 3, 4, 5, 6, 7, 8] ∧
    (start [1, 0, 9, 1, 2, 3, 4, 5, 6, 7, 8] []).prog.bytes.drop 0 = [1, 0, 9, 1, 2, 3, 4, 5, 6, 7, 8] := by decide
theorem witness_IntegerKindsHoldTheirRange : (Value.i8 (-128)).asInt = some (.i8, -128) ∧ IntKind.lo .i8 ≤ -128 ∧
    -128 ≤ IntKind.hi .i8 ∧ IntKind.lo .u64 ≤ 18446744073709551615 ∧ 18446744073709551615 ≤ IntKind.hi .u64 := by decide
theorem witness_AddAndSubWriteTheExactIntegerResult : (31 : Byte).toNat < 32 ∧ readReg 0 small = some (.u8 200) ∧
    readReg 1 small = some (.u8 55) ∧ (Value.u8 200).asInt = some (.u8, 200) ∧ (Value.u8 55).asInt = some (.u8, 55) ∧
    IntKind.lo .u8 ≤ 200 + 55 ∧ 200 + 55 ≤ IntKind.hi .u8 ∧ IntKind.lo .u8 ≤ 200 - 55 ∧ 200 - 55 ≤ IntKind.hi .u8 := by
  decide
/-- Two registers of kind I8 for the products, quotients and overflows. -/
def signedPair (a b : BitVec 8) : State := start [0, 0] [(0, .i8 a), (1, .i8 b)]

theorem witness_MulWritesTheExactIntegerProduct : (0 : Byte).toNat < 32 ∧
    readReg 0 (signedPair (-64) 2) = some (.i8 (-64)) ∧ readReg 1 (signedPair (-64) 2) = some (.i8 2) ∧
    (Value.i8 (-64)).asInt = some (.i8, -64) ∧ (Value.i8 2).asInt = some (.i8, 2) ∧
    IntKind.lo .i8 ≤ -64 * 2 ∧ -64 * 2 ≤ IntKind.hi .i8 := by decide
theorem witness_DivWritesTheQuotientTowardZero : (0 : Byte).toNat < 32 ∧
    readReg 0 (signedPair (-128) 1) = some (.i8 (-128)) ∧ readReg 1 (signedPair (-128) 1) = some (.i8 1) ∧
    (Value.i8 (-128)).asInt = some (.i8, -128) ∧ (Value.i8 1).asInt = some (.i8, 1) ∧ (1 : Int) ≠ 0 ∧
    ¬(IntKind.signed .i8 = true ∧ (-128 : Int) = IntKind.lo .i8 ∧ (1 : Int) = -1) := by decide
theorem witness_IntegerResultOutOfRangeFaults : readReg 0 (signedPair (-128) (-1)) = some (.i8 (-128)) ∧
    readReg 1 (signedPair (-128) (-1)) = some (.i8 (-1)) ∧ (Value.i8 (-128)).asInt = some (.i8, -128) ∧
    (Value.i8 (-1)).asInt = some (.i8, -1) ∧ (-128 : Int) + -1 < IntKind.lo .i8 ∧ IntKind.hi .i8 < -128 * -1 ∧
    (-1 : Int) ≠ 0 ∧ IntKind.hi .i8 < Int.tdiv (-128) (-1) := by decide
theorem witness_IntegerResultOutOfRangeFaults_sub : readReg 0 (signedPair 127 (-1)) = some (.i8 127) ∧
    (Value.i8 127).asInt = some (.i8, 127) ∧ IntKind.hi .i8 < 127 - -1 := by decide
theorem witness_IntegerDivisionByZeroFaults : readReg 0 (signedPair 0 0) = some (.i8 0) ∧
    readReg 1 (signedPair 0 0) = some (.i8 0) ∧ (Value.i8 0).asInt = some (.i8, 0) := by decide
/-- Registers of different kinds, None among them. -/
def mixed : State := start [0, 0] [(1, .i8 1), (2, .none), (3, .none)]

theorem witness_KindMismatchEndsTheStep : readReg 0 mixed = some (.u8 0) ∧ readReg 1 mixed = some (.i8 1) ∧
    readReg 2 mixed = some .none ∧ readReg 3 mixed = some .none ∧ (Value.u8 0).kind ≠ (Value.i8 1).kind ∧
    Value.kind .none = .none := by decide
theorem witness_SourceIndexOutOfRangeFaults : 32 ≤ (0x20 : Byte).toNat ∧ ¬32 ≤ (0x1F : Byte).toNat := by decide
theorem witness_DestinationIndexOutOfRangeFaults : 32 ≤ (0x20 : Byte).toNat ∧
    ∃ t, exec (ArithOp.instr .add 0 1 31) small = .next t ∧ t.runState = .running :=
  ⟨by decide, _, rfl, by decide +kernel⟩
theorem witness_ArithmeticKeepsTheSourcesKind : readReg 0 small = some (.u8 200) ∧ readReg 1 small = some (.u8 55) ∧
    ∃ t, exec (ArithOp.instr .sub 0 1 0) small = .next t ∧ t.runState = .running :=
  ⟨by decide, by decide, _, rfl, by decide +kernel⟩
/-- Float registers: 1.0, an infinity and its negative, at both widths. -/
def floats : State := start [0, 0] [(0, .f32 0x3F800000), (1, .f32 0x7F800000), (2, .f32 0xFF800000),
  (3, .f64 0x3FF0000000000000), (4, .f64 0x7FF0000000000000), (5, .f64 0xFFF0000000000000)]

theorem witness_FloatArithmeticAlwaysCompletes : (31 : Byte).toNat < 32 ∧ readReg 0 floats = some (.f32 0x3F800000) ∧
    readReg 1 floats = some (.f32 0x7F800000) ∧ readReg 2 floats = some (.f32 0xFF800000) ∧
    readReg 3 floats = some (.f64 0x3FF0000000000000) ∧ readReg 4 floats = some (.f64 0x7FF0000000000000) ∧
    readReg 5 floats = some (.f64 0xFFF0000000000000) ∧
    floatOp32 .add 0x3F800000 0x7F800000 = some 0x7F800000 ∧ floatOp32 .add 0x7F800000 0xFF800000 = none ∧
    floatOp64 .add 0x3FF0000000000000 0x7FF0000000000000 = some 0x7FF0000000000000 ∧
    floatOp64 .add 0x7FF0000000000000 0xFFF0000000000000 = none := by decide +kernel
theorem witness_NanResultRangesOverAllNans : isNaN32 0x7F800001 = true ∧ isNaN64 0xFFFFFFFFFFFFFFFF = true := by decide
theorem witness_NanResultsAreTheInvalidOperations : isNaN32 0x7F800001 = true ∧
    floatOp32 .sub 0x7F800000 0x7F800000 = none ∧ floatOp32 .mul 0 0xFF800000 = none ∧
    floatOp64 .div 0 0x8000000000000000 = none ∧ floatOp64 .div 0x7FF0000000000000 0x7FF0000000000000 = none := by
  decide +kernel
theorem witness_FloatDivisionByZeroGivesInfinity : isNaN32 0x00000001 = false ∧
    (0x00000001#32 &&& 0x7FFFFFFF#32) ≠ 0#32 ∧ 0x80000000#32 &&& 0x7FFFFFFF#32 = 0#32 ∧
    isNaN64 0x7FF0000000000000 = false ∧ (0x7FF0000000000000#64 &&& 0x7FFFFFFFFFFFFFFF#64) ≠ 0#64 ∧
    0#64 &&& 0x7FFFFFFFFFFFFFFF#64 = 0#64 := by decide
theorem witness_FloatResultsCarryTheRightSign : floatOp32 .mul 0xBF800000 0 = some 0x80000000 ∧
    floatOp64 .div 0 0xBFF0000000000000 = some 0x8000000000000000 ∧
    floatOp32 .sub 0 0x3F800000 = some 0xBF800000 ∧ floatOp64 .add 0xFFF0000000000000 0 = some 0xFFF0000000000000 := by
  decide +kernel
theorem witness_FloatZeroSumsAndSelfDifferences : 0x7F7FFFFF#32 &&& 0x7F800000#32 ≠ 0x7F800000#32 ∧
    0x0000000000000001#64 &&& 0x7FF0000000000000#64 ≠ 0x7FF0000000000000#64 ∧
    0x80000000#32 &&& 0x7FFFFFFF#32 = 0#32 ∧ 0#32 &&& 0x7FFFFFFF#32 = 0#32 ∧
    0x8000000000000000#64 &&& 0x7FFFFFFFFFFFFFFF#64 = 0#64 ∧ 0#64 &&& 0x7FFFFFFFFFFFFFFF#64 = 0#64 := by decide
theorem witness_FloatOperationsRoundToNearestEven : (Datum.finite false 1 0).toRat = some 1 ∧
    (Datum.finite true 3 0).toRat = some (-3) ∧ (∃ b, binary32.op .div (.finite false 1 0) (.finite true 3 0) = some b) ∧
    |exactRat .div 1 (-3)| < binary32.overflowAt := by
  refine ⟨by norm_num [Datum.toRat], by norm_num [Datum.toRat], ⟨_, rfl⟩, ?_⟩
  norm_num [exactRat, FloatFormat.overflowAt, binary32, FloatFormat.minExp, FloatFormat.topExp, abs_of_neg, abs_of_pos]
theorem witness_FloatOperationsRoundToNearestEven_overflow :
    (Datum.finite false (2 ^ 25 - 1) 103).toRat = some binary32.overflowAt ∧
    (Datum.finite false 1 0).toRat = some 1 ∧
    (∃ b, binary32.op .mul (.finite false (2 ^ 25 - 1) 103) (.finite false 1 0) = some b) ∧
    binary32.overflowAt ≤ |exactRat .mul binary32.overflowAt 1| := by
  refine ⟨?_, by norm_num [Datum.toRat], ⟨_, rfl⟩, ?_⟩
  · norm_num [Datum.toRat, FloatFormat.overflowAt, binary32, FloatFormat.minExp, FloatFormat.topExp]
  · simp only [exactRat, mul_one]
    exact le_abs_self _
theorem witness_FloatOperationsRoundToNearestEven_patterns :
    (binary32.unpack (0x3F800000#32).toNat).toRat = some 1 ∧
    (binary64.unpack (0xBFF0000000000000#64).toNat).toRat = some (-1) := by
  rw [show binary32.unpack (0x3F800000#32).toNat = .finite false (2 ^ 23) (-23) by decide +kernel,
    show binary64.unpack (0xBFF0000000000000#64).toNat = .finite true (2 ^ 52) (-52) by decide +kernel]
  norm_num [Datum.toRat]
theorem witness_FloatOperationsWithAnInfinity : 0xFF800000#32 &&& 0x7FFFFFFF#32 = 0x7F800000#32 ∧
    0#32 &&& 0x7F800000#32 ≠ 0x7F800000#32 ∧ (0x7F800000#32).msb ≠ (0xFF800000#32).msb ∧
    isNaN32 0x80000001 = false ∧ 0x80000001#32 &&& 0x7FFFFFFF#32 ≠ 0#32 ∧
    0x7FF0000000000000#64 &&& 0x7FFFFFFFFFFFFFFF#64 = 0x7FF0000000000000#64 ∧
    0x7FEFFFFFFFFFFFFF#64 &&& 0x7FF0000000000000#64 ≠ 0x7FF0000000000000#64 ∧
    (0x7FF0000000000000#64).msb ≠ (0xFFF0000000000000#64).msb ∧
    isNaN64 0xFFF0000000000000 = false ∧ 0xFFF0000000000000#64 &&& 0x7FFFFFFFFFFFFFFF#64 ≠ 0#64 := by decide
theorem witness_RunRepeatsTheStepUntilItStops : ∃ t, step small = .next t := ⟨_, rfl⟩
theorem witness_StepAndRunOperationsReturnTheStopFlag : halted.runState = .stopped := by decide
theorem witness_OnlySetProgAndResetLeaveStopped : halted.runState = .stopped ∧
    (∃ t r, hostOp .reset halted = .next (t, r) ∧ t.runState ≠ .stopped) ∧
    ∃ t r, hostOp (.setProg []) halted = .next (t, r) ∧ t.runState ≠ .stopped := by
  refine ⟨by decide, ⟨_, _, rfl, by decide⟩, restart 0 (Memory.ofBytes []) halted, .done, ?_, by decide⟩
  have h : ¬(halted.runState = .running ∨ Config.lenMax < ([] : List Byte).length) := by
    rintro (h | h)
    · exact absurd h (by decide)
    · simp at h
  simp only [hostOp, hostSetProg, if_neg h]
theorem witness_SetProgInstallsOrRefuses : (halted.runState ≠ .running ∧ ([] : List Byte).length ≤ Config.lenMax) ∧
    ({ small with runState := .running } : State).runState = .running ∧
    Config.lenMax < (List.replicate (Config.lenMax + 1) (0 : Byte)).length :=
  ⟨⟨by decide, Nat.zero_le _⟩, rfl, by simp⟩
theorem witness_InstalledProgramStartsAtOffsetZero : 2 ≤ ([0, 0] : List Byte).length ∧ decode [0, 0] = .ok .halt := by decide
theorem witness_HostRegisterWritesReadBack : 31 < 32 ∧ hostKindBits 0 = some 8 ∧ hostKindBits 15 = some 0 ∧
    hostKindBits 10 = none := by decide
theorem witness_ReadOperationsReturnTheState : 31 < 32 ∧ 32 ≤ 32 := by decide
theorem witness_RefusedOperationsChangeNothing : HostOp.refusedIn (.readReg 32) small ∧
    ¬HostOp.refusedIn (.readReg 31) small := by
  simp [HostOp.refusedIn]
theorem witness_DiagnosticsAreAppendOnly : HostOp.run ≠ .reset ∧ ∃ t r, hostOp .run small = .next (t, r) :=
  ⟨by decide, _, _, rfl⟩
theorem witness_StatusCodesTellTheCause : StopCause.code .overflow = StopCause.code .overflow := rfl

end Sys2Proof.Tests
end

section
/-! Reset of the register file and the program counter. -/

namespace Sys2Proof.Machine

/-- The register file of `State.reset` is `U8(0)` at every index (10_state.md R30). -/
@[simp] theorem reset_regs_getElem (i : Nat) (h : i < 32) : State.reset.regs[i] = .u8 0 :=
  Vector.getElem_replicate h

/-- R30 at the level of a register read: no register is unwritten after reset. -/
theorem readReg_reset (i : Nat) (h : i < 32) : readReg i State.reset = some (.u8 0) := by
  rw [readReg_of_lt i h, reset_regs_getElem i h]

/-- The program counter starts at offset 0 (R35). -/
@[simp] theorem reset_pc : State.reset.pc = 0 := rfl

/-- Settles O1, from the reset values of the register file (R30) and of the program counter (R35). -/
theorem resetRegistersAndCounter : Obligations.ResetRegistersAndCounter :=
  ⟨readReg_reset, reset_pc⟩

end Sys2Proof.Machine
end

section
/-! The program buffer under execution. -/

namespace Sys2Proof.Machine

/-- Execution leaves the program as it was: each of the three shapes of a next state (a stop with a notice, a stop or
fault without one, a completion) is built from operations that keep the program (20_memory.md R55). -/
theorem exec_prog {i : Instr} {s t : State} (h : exec i s = .next t) : t.prog = s.prog := by
  rcases exec_cases i s with ⟨c, k, he, -⟩ | ⟨c, -, he, -⟩ | ⟨rd, hrd, v, d, he, -⟩ <;>
    obtain rfl := Host.Outcome.next.inj (he.symm.trans h)
  · rw [endStep_prog, emitDiag_prog, advance_prog]
  · rw [endStep_prog, advance_prog]
  · rw [complete_prog, takeDraws_prog, setReg_prog, advance_prog]

/-- Settles O22: the program is unchanged by `exec_prog`, so every read of it is. -/
theorem instructionsNeverWriteTheProgram : Obligations.InstructionsNeverWriteTheProgram := by
  intro i s t h
  have hprog : t.prog = s.prog := exec_prog h
  exact ⟨hprog, fun a => by rw [hprog]⟩

end Sys2Proof.Machine
end

section
/-! The decoder on the bytes of each format: three-register instructions, and LOAD under each type tag. -/

namespace Sys2Proof

/-! ### Assembling a payload -/

/-- The low byte of a little-endian payload stands lowest in the assembled word. -/
theorem ofNat_leNat_cons (n : Nat) (b : Byte) (bs : List Byte) :
    BitVec.ofNat (n + 8) (leNat (b :: bs)) = BitVec.ofNat n (leNat bs) ++ b := by
  apply BitVec.eq_of_toNat_eq
  have hb : b.toNat < 2 ^ 8 := b.isLt
  have hpow : 2 ^ (n + 8) = 256 * 2 ^ n := by rw [Nat.pow_add, Nat.mul_comm]
  rw [BitVec.toNat_append, ← Nat.shiftLeft_add_eq_or_of_lt hb, Nat.shiftLeft_eq, BitVec.toNat_ofNat,
    BitVec.toNat_ofNat, leNat, hpow, Nat.mod_mul]
  have hdiv : (b.toNat + 256 * leNat bs) / 256 = leNat bs := by omega
  rw [hdiv]
  omega

theorem ofNat_leNat_one (p0 : Byte) : BitVec.ofNat 8 (leNat [p0]) = p0 := by simp [leNat]

theorem ofNat_leNat_two (p0 p1 : Byte) : BitVec.ofNat 16 (leNat [p0, p1]) = p1 ++ p0 := by
  rw [ofNat_leNat_cons 8, ofNat_leNat_one]

/-- A 16-bit payload is assembled high byte first (30_encoding.md R78). -/
theorem ofNat_beNat_two (p0 p1 : Byte) : BitVec.ofNat 16 (beNat [p0, p1]) = p0 ++ p1 :=
  ofNat_leNat_two p1 p0

/-- A 32-bit payload is assembled low byte first (30_encoding.md R78, R79). -/
theorem ofNat_leNat_four (p0 p1 p2 p3 : Byte) :
    BitVec.ofNat 32 (leNat [p0, p1, p2, p3]) = p3 ++ p2 ++ p1 ++ p0 := by
  rw [ofNat_leNat_cons 24, ofNat_leNat_cons 16, ofNat_leNat_two]

/-- A 64-bit payload is assembled low byte first (30_encoding.md R78, R79). -/
theorem ofNat_leNat_eight (p0 p1 p2 p3 p4 p5 p6 p7 : Byte) :
    BitVec.ofNat 64 (leNat [p0, p1, p2, p3, p4, p5, p6, p7]) =
      p7 ++ p6 ++ p5 ++ p4 ++ p3 ++ p2 ++ p1 ++ p0 := by
  rw [ofNat_leNat_cons 56, ofNat_leNat_cons 48, ofNat_leNat_cons 40, ofNat_leNat_cons 32, ofNat_leNat_four]

/-! ### Type tags -/

theorem payloadWidth_le (tag : Byte) : payloadWidth tag ≤ 8 := by
  unfold payloadWidth
  split <;> omega

/-- The tags 0x0A to 0xFF carry no payload (30_encoding.md R77). -/
theorem payloadWidth_of_ge {tag : Byte} (h : 0x0A ≤ tag.toNat) : payloadWidth tag = 0 := by
  obtain ⟨n, hn⟩ := Nat.exists_eq_add_of_le' h
  simp only [payloadWidth, hn]

/-- The tags 0x0A to 0xFF select None (30_encoding.md R77). -/
theorem loadOf_of_ge {tag : Byte} (h : 0x0A ≤ tag.toNat) (rd : Byte) (p : List Byte) :
    loadOf rd tag p = .loadNone rd := by
  obtain ⟨n, hn⟩ := Nat.exists_eq_add_of_le' h
  simp only [loadOf, hn]

/-! ### The decoder, format by format -/

theorem decode_opcode_load (rest : List Byte) : decode (0x01 :: rest) = decodeLoad rest := rfl
theorem decode_opcode_add (rest : List Byte) : decode (0x02 :: rest) = decodeR3 .add rest := rfl
theorem decode_opcode_sub (rest : List Byte) : decode (0x03 :: rest) = decodeR3 .sub rest := rfl
theorem decode_opcode_mul (rest : List Byte) : decode (0x04 :: rest) = decodeR3 .mul rest := rfl
theorem decode_opcode_div (rest : List Byte) : decode (0x05 :: rest) = decodeR3 .div rest := rfl

theorem decodeLoad_append (rd tag : Byte) (p rest : List Byte) (hp : p.length = payloadWidth tag) :
    decodeLoad (rd :: tag :: (p ++ rest)) = .ok (loadOf rd tag p) := by
  have hlen : payloadWidth tag ≤ (p ++ rest).length := by rw [List.length_append]; omega
  rw [decodeLoad, if_pos hlen, ← hp, List.take_left]

/-- LOAD is opcode, destination, tag and as many payload bytes as the tag announces (30_encoding.md R74, R76). -/
theorem decode_load {rd tag : Byte} {i : Instr} (p rest : List Byte) (hp : p.length = payloadWidth tag)
    (hi : loadOf rd tag p = i) : decode (0x01 :: rd :: tag :: (p ++ rest)) = .ok i := by
  rw [decode_opcode_load, decodeLoad_append rd tag p rest hp, hi]

theorem decode_loadU8 (rd p0 : Byte) (rest : List Byte) :
    decode (0x01 :: rd :: 0x00 :: p0 :: rest) = .ok (.loadU8 rd p0) :=
  decode_load [p0] rest rfl (congrArg (Instr.loadU8 rd) (ofNat_leNat_one ..))

theorem decode_loadI8 (rd p0 : Byte) (rest : List Byte) :
    decode (0x01 :: rd :: 0x01 :: p0 :: rest) = .ok (.loadI8 rd p0) :=
  decode_load [p0] rest rfl (congrArg (Instr.loadI8 rd) (ofNat_leNat_one ..))

theorem decode_loadU16 (rd p0 p1 : Byte) (rest : List Byte) :
    decode (0x01 :: rd :: 0x02 :: p0 :: p1 :: rest) = .ok (.loadU16 rd (p0 ++ p1)) :=
  decode_load [p0, p1] rest rfl (congrArg (Instr.loadU16 rd) (ofNat_beNat_two ..))

theorem decode_loadI16 (rd p0 p1 : Byte) (rest : List Byte) :
    decode (0x01 :: rd :: 0x03 :: p0 :: p1 :: rest) = .ok (.loadI16 rd (p0 ++ p1)) :=
  decode_load [p0, p1] rest rfl (congrArg (Instr.loadI16 rd) (ofNat_beNat_two ..))

theorem decode_loadU32 (rd p0 p1 p2 p3 : Byte) (rest : List Byte) :
    decode (0x01 :: rd :: 0x04 :: p0 :: p1 :: p2 :: p3 :: rest) = .ok (.loadU32 rd (p3 ++ p2 ++ p1 ++ p0)) :=
  decode_load [p0, p1, p2, p3] rest rfl (congrArg (Instr.loadU32 rd) (ofNat_leNat_four ..))

theorem decode_loadI32 (rd p0 p1 p2 p3 : Byte) (rest : List Byte) :
    decode (0x01 :: rd :: 0x05 :: p0 :: p1 :: p2 :: p3 :: rest) = .ok (.loadI32 rd (p3 ++ p2 ++ p1 ++ p0)) :=
  decode_load [p0, p1, p2, p3] rest rfl (congrArg (Instr.loadI32 rd) (ofNat_leNat_four ..))

theorem decode_loadU64 (rd p0 p1 p2 p3 p4 p5 p6 p7 : Byte) (rest : List Byte) :
    decode (0x01 :: rd :: 0x06 :: p0 :: p1 :: p2 :: p3 :: p4 :: p5 :: p6 :: p7 :: rest) =
      .ok (.loadU64 rd (p7 ++ p6 ++ p5 ++ p4 ++ p3 ++ p2 ++ p1 ++ p0)) :=
  decode_load [p0, p1, p2, p3, p4, p5, p6, p7] rest rfl (congrArg (Instr.loadU64 rd) (ofNat_leNat_eight ..))

theorem decode_loadI64 (rd p0 p1 p2 p3 p4 p5 p6 p7 : Byte) (rest : List Byte) :
    decode (0x01 :: rd :: 0x07 :: p0 :: p1 :: p2 :: p3 :: p4 :: p5 :: p6 :: p7 :: rest) =
      .ok (.loadI64 rd (p7 ++ p6 ++ p5 ++ p4 ++ p3 ++ p2 ++ p1 ++ p0)) :=
  decode_load [p0, p1, p2, p3, p4, p5, p6, p7] rest rfl (congrArg (Instr.loadI64 rd) (ofNat_leNat_eight ..))

theorem decode_loadF32 (rd p0 p1 p2 p3 : Byte) (rest : List Byte) :
    decode (0x01 :: rd :: 0x08 :: p0 :: p1 :: p2 :: p3 :: rest) = .ok (.loadF32 rd (p3 ++ p2 ++ p1 ++ p0)) :=
  decode_load [p0, p1, p2, p3] rest rfl (congrArg (Instr.loadF32 rd) (ofNat_leNat_four ..))

theorem decode_loadF64 (rd p0 p1 p2 p3 p4 p5 p6 p7 : Byte) (rest : List Byte) :
    decode (0x01 :: rd :: 0x09 :: p0 :: p1 :: p2 :: p3 :: p4 :: p5 :: p6 :: p7 :: rest) =
      .ok (.loadF64 rd (p7 ++ p6 ++ p5 ++ p4 ++ p3 ++ p2 ++ p1 ++ p0)) :=
  decode_load [p0, p1, p2, p3, p4, p5, p6, p7] rest rfl (congrArg (Instr.loadF64 rd) (ofNat_leNat_eight ..))

theorem decode_loadNone {tag : Byte} (h : 0x0A ≤ tag.toNat) (rd : Byte) (rest : List Byte) :
    decode (0x01 :: rd :: tag :: rest) = .ok (.loadNone rd) :=
  decode_load [] rest (payloadWidth_of_ge h).symm (loadOf_of_ge h rd [])

theorem decodeR3_cons (mk : Byte → Byte → Byte → Instr) (ra rb rd : Byte) (rest : List Byte) :
    decodeR3 mk (ra :: rb :: rd :: rest) = .ok (mk ra rb rd) := rfl

/-- Settles O10: each opcode 0x02 to 0x05 selects its operation (30_encoding.md R71), whose operands `decodeR3` takes
in byte order. -/
theorem formatR3DecodesInByteOrder : Obligations.FormatR3DecodesInByteOrder := by
  intro ra rb rd rest
  refine ⟨?add, ?sub, ?mul, ?div, rfl, rfl, rfl, rfl⟩
  case add => rw [decode_opcode_add, decodeR3_cons]
  case sub => rw [decode_opcode_sub, decodeR3_cons]
  case mul => rw [decode_opcode_mul, decodeR3_cons]
  case div => rw [decode_opcode_div, decodeR3_cons]

/-- Settles O11, tag by tag. -/
theorem typeTagMapDecodes : Obligations.TypeTagMapDecodes := by
  intro rd p0 p1 p2 p3 p4 p5 p6 p7 rest
  refine ⟨decode_loadU8 .., decode_loadI8 .., decode_loadU16 .., decode_loadI16 .., decode_loadU32 ..,
    decode_loadI32 .., decode_loadU64 .., decode_loadI64 .., decode_loadF32 .., decode_loadF64 .., ?none⟩
  case none =>
    intro tag htag
    exact ⟨decode_loadNone htag rd rest, payloadWidth_of_ge htag, rfl⟩

/-! ### What the decoder looks at -/

theorem decodeLoad_take (rest : List Byte) : decodeLoad (rest.take 10) = decodeLoad rest := by
  match rest with
  | [] | [_] => rfl
  | rd :: tag :: p =>
    have hw := payloadWidth_le tag
    have hlen : payloadWidth tag ≤ (p.take 8).length ↔ payloadWidth tag ≤ p.length := by
      rw [List.length_take]; omega
    simp only [List.take_succ_cons, decodeLoad, hlen, List.take_take, Nat.min_eq_left hw]

theorem decodeR3_take (mk : Byte → Byte → Byte → Instr) (rest : List Byte) :
    decodeR3 mk (rest.take 10) = decodeR3 mk rest := by
  match rest with
  | [] | [_] | [_, _] | _ :: _ :: _ :: _ => rfl

/-- The decoder looks at no byte past the longest instruction (30_encoding.md R70). -/
theorem decode_take_maxLength (bs : List Byte) : decode (bs.take maxLength) = decode bs := by
  cases bs with
  | nil => rfl
  | cons op rest => simp only [maxLength, List.take_succ_cons, decode, decodeLoad_take, decodeR3_take]

end Sys2Proof
end

section
/-! From the bytes at the program counter to the instruction a step executes, and to the register a LOAD writes. -/

namespace Sys2Proof.Machine

/-! ### The execution of a LOAD -/

theorem runLoad_of_lt {rd : Byte} (h : rd.toNat < 32) (v : Value) (n : Nat) (s : State) :
    runLoad rd v n s = s.completed n rd.toNat h v :=
  writeResult_of_lt rd h v 0 s.pc (advance n s)

/-- Each of the eleven LOAD forms is one operation, the load of its immediate (42_load.md R150). -/
theorem exec_of_loaded {i : Instr} {rd : Byte} {v : Value} (hi : i.loaded = some (rd, v)) (s : State) :
    exec i s = .next (runLoad rd v i.length s) := by
  cases i <;> cases hi <;> rfl

theorem exec_load_of_lt {i : Instr} {rd : Byte} {v : Value} (hi : i.loaded = some (rd, v)) (h : rd.toNat < 32)
    (s : State) : exec i s = .next (s.completed i.length rd.toNat h v) := by
  rw [exec_of_loaded hi, runLoad_of_lt h]

/-! ### The step over the bytes at `pc` -/

section

variable {s : State} {i : Instr} {b0 b1 : Byte} {rest : List Byte}

/-- The bytes at `pc` stand within the program. -/
theorem pc_add_two_le_of_bytes (hb : s.prog.bytes.drop s.pc = b0 :: b1 :: rest) : s.pc + 2 ≤ s.prog.length := by
  have hlen := congrArg List.length hb
  simp only [List.length_drop, Memory.length_bytes, List.length_cons] at hlen
  omega

/-- A step over two bytes or more that decode runs the instruction they decode to (40_cycle_and_host.md R104, R106):
the window the step decodes is long enough for it. -/
theorem step_of_bytes (hs : s.runState ≠ .stopped) (hwf : s.prog.wf = true)
    (hb : s.prog.bytes.drop s.pc = b0 :: b1 :: rest) (hd : decode (b0 :: b1 :: rest) = .ok i) :
    step s = exec i s := by
  have hpc := pc_add_two_le_of_bytes hb
  have hw : decode (s.prog.window s.pc maxLength) = .ok i := by
    rw [Memory.window_of_wf _ hwf, decode_take_maxLength, hb, hd]
  rcases step_cases s with ⟨hstop, -⟩ | ⟨-, hempty, -⟩ | ⟨-, -, hend, -⟩ | ⟨-, -, ⟨e, he, -⟩ | ⟨j, hj, hstep⟩⟩
  · exact absurd hstop hs
  · omega
  · omega
  · rw [hw] at he; cases he
  · rw [hw] at hj; cases hj; exact hstep

/-- A step over the bytes of a LOAD with a destination below 32 writes the loaded value. -/
theorem step_load_of_bytes {rd : Byte} {v : Value} (hs : s.runState ≠ .stopped) (hwf : s.prog.wf = true)
    (h : rd.toNat < 32) (hb : s.prog.bytes.drop s.pc = b0 :: b1 :: rest) (hd : decode (b0 :: b1 :: rest) = .ok i)
    (hi : i.loaded = some (rd, v)) : step s = .next (s.completed i.length rd.toNat h v) := by
  rw [step_of_bytes hs hwf hb hd, exec_load_of_lt hi h]

end

/-- Settles O30: the bytes decode under each of these tags to a LOAD, and the step writes what it loads. -/
theorem stepLoadsNarrowPayloads : Obligations.StepLoadsNarrowPayloads := by
  intro s rd p0 p1 tag rest h hs hwf
  refine ⟨?u8, ?i8, ?u16, ?i16, ?none⟩
  case u8 => exact fun hb => step_load_of_bytes hs hwf h hb (decode_loadU8 rd p0 rest) rfl
  case i8 => exact fun hb => step_load_of_bytes hs hwf h hb (decode_loadI8 rd p0 rest) rfl
  case u16 => exact fun hb => step_load_of_bytes hs hwf h hb (decode_loadU16 rd p0 p1 rest) rfl
  case i16 => exact fun hb => step_load_of_bytes hs hwf h hb (decode_loadI16 rd p0 p1 rest) rfl
  case none => exact fun hb htag => step_load_of_bytes hs hwf h hb (decode_loadNone htag rd rest) rfl

end Sys2Proof.Machine
end

section
/-! The program counter over a step: past the instruction when the decode succeeds, and left alone at the end of the
program. -/

namespace Sys2Proof

/-! ### Lengths of instructions -/

/-- The encoding of every instruction is as long as R80 says (30_encoding.md). -/
@[simp] theorem length_encode (i : Instr) : (encode i).length = i.length := by
  cases i with
  | halt => exact Laws.EncodedLength.halt
  | loadU8 rd imm => exact Laws.EncodedLength.loadU8 rd imm
  | loadI8 rd imm => exact Laws.EncodedLength.loadI8 rd imm
  | loadU16 rd imm => exact Laws.EncodedLength.loadU16 rd imm
  | loadI16 rd imm => exact Laws.EncodedLength.loadI16 rd imm
  | loadU32 rd imm => exact Laws.EncodedLength.loadU32 rd imm
  | loadI32 rd imm => exact Laws.EncodedLength.loadI32 rd imm
  | loadU64 rd imm => exact Laws.EncodedLength.loadU64 rd imm
  | loadI64 rd imm => exact Laws.EncodedLength.loadI64 rd imm
  | loadF32 rd imm => exact Laws.EncodedLength.loadF32 rd imm
  | loadF64 rd imm => exact Laws.EncodedLength.loadF64 rd imm
  | loadNone rd => exact Laws.EncodedLength.loadNone rd
  | add ra rb rd => exact Laws.EncodedLength.add ra rb rd
  | sub ra rb rd => exact Laws.EncodedLength.sub ra rb rd
  | mul ra rb rd => exact Laws.EncodedLength.mul ra rb rd
  | div ra rb rd => exact Laws.EncodedLength.div ra rb rd
  | illegal op => exact Laws.EncodedLength.illegal op

@[simp] theorem ArithOp.length_instr (op : ArithOp) (ra rb rd : Byte) : (op.instr ra rb rd).length = 4 := by
  cases op <;> rfl

/-- A LOAD is its opcode, its register byte, its tag and the payload the tag announces (30_encoding.md R74, R76). -/
@[simp] theorem length_loadOf (rd tag : Byte) (p : List Byte) : (loadOf rd tag p).length = 3 + payloadWidth tag := by
  rcases Nat.lt_or_ge tag.toNat 0x0A with htyped | hnone
  · unfold loadOf payloadWidth
    generalize tag.toNat = n at htyped ⊢
    interval_cases n <;> rfl
  · rw [loadOf_of_ge hnone, payloadWidth_of_ge hnone]
    rfl

end Sys2Proof

namespace Sys2Proof.Machine

/-! ### The counter after an execution -/

/-- Execution moves the counter once, by `advance`: a stop, a fault and a completion all keep it there
(40_cycle_and_host.md R105). -/
theorem exec_pc {i : Instr} {s t : State} (h : exec i s = .next t) : t.pc = s.pc + i.length := by
  rcases exec_cases i s with ⟨c, k, he, -⟩ | ⟨c, -, he, -⟩ | ⟨rd, hrd, v, d, he, -⟩ <;>
    obtain rfl := Host.Outcome.next.inj (he.symm.trans h)
  · rw [endStep_pc, emitDiag_pc, advance_pc]
  · rw [endStep_pc, advance_pc]
  · rw [complete_pc, takeDraws_pc, setReg_pc, advance_pc]

/-! ### The step -/

/-- The last byte of a program is never an opcode: at or past it the step ends the program (40_cycle_and_host.md R103,
R111). -/
theorem step_at_end {s : State} (hs : s.runState ≠ .stopped) (hlen : 1 ≤ s.prog.length)
    (hend : s.prog.length ≤ s.pc + 1) : step s = .next (endStep .endOfProgram s.pc s) := by
  rcases step_cases s with ⟨hstop, -⟩ | ⟨-, hempty, -⟩ | ⟨-, -, -, hstep⟩ | ⟨-, hpc, -⟩
  · exact absurd hstop hs
  · omega
  · exact hstep
  · omega

/-- Settles O17: of the shapes of a step only the end of the program is possible there, and `endStep` changes nothing
but the three status fields. -/
theorem endOfProgramStopsWithoutDecoding : Obligations.EndOfProgramStopsWithoutDecoding := by
  intro s hs hlen hpc
  exact step_at_end hs hlen (by omega)

/-- `step_of_bytes` with the bytes left unnamed: two bytes from `pc` on, whatever they are, are enough for the step to
reach the decode. -/
theorem step_of_decode {s : State} {i : Instr} (hs : s.runState ≠ .stopped) (hwf : s.prog.wf = true)
    (hpc : s.pc + 2 ≤ s.prog.length) (hd : decode (s.prog.bytes.drop s.pc) = .ok i) : step s = exec i s := by
  have hlen : (s.prog.bytes.drop s.pc).length = s.prog.length - s.pc := by
    rw [List.length_drop, Memory.length_bytes]
  rcases hb : s.prog.bytes.drop s.pc with _ | ⟨b0, _ | ⟨b1, rest⟩⟩
  · rw [hb, List.length_nil] at hlen
    omega
  · rw [hb, List.length_singleton] at hlen
    omega
  · exact step_of_bytes hs hwf hb (hb ▸ hd)

/-- Settles O21: a step over a decoded instruction is its execution, `exec_pc` says how far that moves the counter, and
the length of each format gives the numbers. -/
theorem counterAdvancesByTheInstruction : Obligations.CounterAdvancesByTheInstruction := by
  intro i s t
  have hexec (h : exec i s = .next t) : t.pc = s.pc + (encode i).length := by rw [length_encode, exec_pc h]
  refine ⟨fun hs hwf hpc hd hstep => hexec (step_of_decode hs hwf hpc hd ▸ hstep), fun h => ⟨hexec h, ?stops, ?r3, ?load⟩⟩
  case stops =>
    rintro (rfl | ⟨op, rfl⟩)
    · exact exec_pc h
    · exact exec_pc h
  case r3 =>
    rintro op ra rb rd rfl
    rw [exec_pc h, ArithOp.length_instr]
  case load =>
    rintro rd tag p rfl
    rw [exec_pc h, length_loadOf, Nat.add_assoc]

end Sys2Proof.Machine
end

section
/-! The host operations on a Stopped engine: steps and runs do nothing there, and no operation but SETPROG and RESET
writes the run state. -/

namespace Sys2Proof.Machine

/-! ### Stepping and running a Stopped engine -/

/-- A step of a Stopped engine changes nothing (40_cycle_and_host.md R101). -/
theorem step_of_stopped {s : State} (hs : s.runState = .stopped) : step s = .next s := by
  rcases step_cases s with ⟨-, hstep⟩ | ⟨hne, -⟩ | ⟨hne, -⟩ | ⟨hne, -⟩
  · exact hstep
  all_goals exact absurd hs hne

/-- The first step of a run of a Stopped engine answers that it should stop (40_cycle_and_host.md R112). -/
theorem run_of_stopped {s : State} (hs : s.runState = .stopped) : run s = .next s := by
  have hstop : shouldStop s = true := decide_eq_true hs
  rw [run, runSteps_succ _ _ _ (step_of_stopped hs), if_pos hstop]

/-! ### The state after the operations on registers and on the program -/

@[simp] theorem hostReadReg_fst (i : Nat) (s : State) : (hostReadReg i s).1 = s := by
  unfold hostReadReg
  split <;> rfl

/-- WRITEREG writes one register or is refused (40_cycle_and_host.md R125, R132). -/
theorem hostWriteReg_cases (i : Nat) (kind : BitVec 4) (payload : BitVec 64) (s : State) :
    hostWriteReg i kind payload s = (s, .error) ∨
      ∃ (h : i < 32) (v : Value), Value.ofHost kind payload = some v ∧
        hostWriteReg i kind payload s = (setReg i h v s, .done) := by
  unfold hostWriteReg
  rcases Value.ofHost kind payload with _ | v
  · exact .inl rfl
  rcases Nat.lt_or_ge i 32 with h | h
  · exact .inr ⟨h, v, rfl, by simp only [writeReg_of_lt i h]⟩
  · exact .inl (by simp only [writeReg_of_ge i h])

@[simp] theorem hostWriteReg_fst_runState (i : Nat) (kind : BitVec 4) (payload : BitVec 64) (s : State) :
    (hostWriteReg i kind payload s).1.runState = s.runState := by
  rcases hostWriteReg_cases i kind payload s with he | ⟨h, v, -, he⟩ <;> rw [he]
  rw [setReg_runState]

/-- SETPROG restarts the engine at offset 0 of the program given or is refused (40_cycle_and_host.md R121, R132). -/
theorem hostSetProg_cases (b : List Byte) (s : State) :
    ((s.runState = .running ∨ Config.lenMax < b.length) ∧ hostSetProg b s = (s, .error)) ∨
      (s.runState ≠ .running ∧ b.length ≤ Config.lenMax ∧
        hostSetProg b s = (restart 0 (Memory.ofBytes b) s, .done)) := by
  by_cases h : s.runState = .running ∨ Config.lenMax < b.length
  · exact .inl ⟨h, if_pos h⟩
  · obtain ⟨hrun, hlen⟩ := not_or.1 h
    exact .inr ⟨hrun, Nat.not_lt.1 hlen, if_neg h⟩

/-! ### The ways out of Stopped -/

/-- Everything a host operation can do to the run state of a Stopped engine: it stays, or the operation is RESET or an
accepted SETPROG (60_exceptions.md R231). -/
theorem hostOp_cases_of_stopped {o : HostOp} {s t : State} {r : HostReply} (hs : s.runState = .stopped)
    (h : hostOp o s = .next (t, r)) :
    t.runState = .stopped ∨ o = .reset ∨ ∃ b, o = .setProg b ∧ t = restart 0 (Memory.ofBytes b) s := by
  cases o with
  | reset => exact .inr (.inl rfl)
  | setProg b =>
    have ht : (hostSetProg b s).1 = t := congrArg Prod.fst (Host.Outcome.next.inj h)
    rcases hostSetProg_cases b s with ⟨-, he⟩ | ⟨-, -, he⟩ <;> rw [he] at ht
    · exact .inl (ht ▸ hs)
    · exact .inr (.inr ⟨b, rfl, ht.symm⟩)
  | step =>
    rw [hostOp, step_of_stopped hs] at h
    cases h
    exact .inl hs
  | run =>
    rw [hostOp, run_of_stopped hs] at h
    cases h
    exact .inl hs
  | writeReg i kind payload =>
    have ht : (hostWriteReg i kind payload s).1 = t := congrArg Prod.fst (Host.Outcome.next.inj h)
    exact .inl (by rw [← ht, hostWriteReg_fst_runState, hs])
  | readReg i =>
    have ht : (hostReadReg i s).1 = t := congrArg Prod.fst (Host.Outcome.next.inj h)
    exact .inl (by rw [← ht, hostReadReg_fst, hs])
  | readPc | readStatus | readDiag =>
    cases h
    exact .inl hs

/-- Settles O52: of the cases of `hostOp_cases_of_stopped` only RESET and an accepted SETPROG leave Stopped, and what
SETPROG then does to the state is `restart` at offset 0. -/
theorem onlySetProgAndResetLeaveStopped : Obligations.OnlySetProgAndResetLeaveStopped := by
  intro o s t r hs h ht
  rcases hostOp_cases_of_stopped hs h with hstay | hreset | ⟨b, hset, rfl⟩
  · exact absurd hstay ht
  · exact .inl hreset
  · exact .inr ⟨b, hset, restart_pc .., restart_regs .., restart_prog ..⟩

end Sys2Proof.Machine
end

section
/-! The decoder and the encoder as inverses, and the opcode-table row the decoder's bytes select. -/

namespace Sys2Proof

/-! ### Decoding an encoding -/

/-- A payload of `n` bytes holds the bit pattern they were written from, low byte first. -/
theorem ofNat_leNat_leBytes {w : Nat} (n : Nat) (hw : 256 ^ n = 2 ^ w) (x : BitVec w) :
    BitVec.ofNat w (leNat (leBytes n x.toNat)) = x := by
  rw [leNat_leBytes, hw, Nat.mod_eq_of_lt x.isLt, BitVec.ofNat_toNat, BitVec.setWidth_eq]

theorem ofNat_beNat_beBytes {w : Nat} (n : Nat) (hw : 256 ^ n = 2 ^ w) (x : BitVec w) :
    BitVec.ofNat w (beNat (beBytes n x.toNat)) = x := by
  rw [beNat_beBytes, hw, Nat.mod_eq_of_lt x.isLt, BitVec.ofNat_toNat, BitVec.setWidth_eq]

/-- A LOAD of a little-endian kind decodes to what its payload was written from. -/
theorem decode_leBytes {w n : Nat} {rd tag : Byte} {mk : BitVec w → Instr} (hn : payloadWidth tag = n)
    (hw : 256 ^ n = 2 ^ w) (hmk : ∀ p, loadOf rd tag p = mk (BitVec.ofNat w (leNat p))) (imm : BitVec w)
    (rest : List Byte) : decode (0x01 :: rd :: tag :: (leBytes n imm.toNat ++ rest)) = .ok (mk imm) :=
  decode_load _ rest (by rw [length_leBytes, hn]) (by rw [hmk, ofNat_leNat_leBytes n hw])

/-- A LOAD of a big-endian kind decodes to what its payload was written from. -/
theorem decode_beBytes {w n : Nat} {rd tag : Byte} {mk : BitVec w → Instr} (hn : payloadWidth tag = n)
    (hw : 256 ^ n = 2 ^ w) (hmk : ∀ p, loadOf rd tag p = mk (BitVec.ofNat w (beNat p))) (imm : BitVec w)
    (rest : List Byte) : decode (0x01 :: rd :: tag :: (beBytes n imm.toNat ++ rest)) = .ok (mk imm) :=
  decode_load _ rest (by rw [length_beBytes, hn]) (by rw [hmk, ofNat_beNat_beBytes n hw])

theorem decode_illegal {op : Byte} (h : 6 ≤ op.toNat) (rest : List Byte) : decode (op :: rest) = .ok (.illegal op) := by
  rcases decode_cases op rest with ⟨rfl, -⟩ | ⟨rfl, -⟩ | ⟨rfl, -⟩ | ⟨rfl, -⟩ | ⟨rfl, -⟩ | ⟨rfl, -⟩ | ⟨-, hd⟩
  case inr.inr.inr.inr.inr.inr => exact hd
  all_goals exact absurd h (by decide)

/-- Settles O7, format by format: a LOAD by the round trip of its payload, the others by their fixed bytes. -/
theorem decodeOfEncodeIsIdentity : Obligations.DecodeOfEncodeIsIdentity := by
  intro i rest hwf
  cases i with
  | halt => rfl
  | loadU8 rd imm => exact decode_leBytes (mk := .loadU8 rd) rfl rfl (fun _ => rfl) imm rest
  | loadI8 rd imm => exact decode_leBytes (mk := .loadI8 rd) rfl rfl (fun _ => rfl) imm rest
  | loadU16 rd imm => exact decode_beBytes (mk := .loadU16 rd) rfl rfl (fun _ => rfl) imm rest
  | loadI16 rd imm => exact decode_beBytes (mk := .loadI16 rd) rfl rfl (fun _ => rfl) imm rest
  | loadU32 rd imm => exact decode_leBytes (mk := .loadU32 rd) rfl rfl (fun _ => rfl) imm rest
  | loadI32 rd imm => exact decode_leBytes (mk := .loadI32 rd) rfl rfl (fun _ => rfl) imm rest
  | loadU64 rd imm => exact decode_leBytes (mk := .loadU64 rd) rfl rfl (fun _ => rfl) imm rest
  | loadI64 rd imm => exact decode_leBytes (mk := .loadI64 rd) rfl rfl (fun _ => rfl) imm rest
  | loadF32 rd imm => exact decode_leBytes (mk := .loadF32 rd) rfl rfl (fun _ => rfl) imm rest
  | loadF64 rd imm => exact decode_leBytes (mk := .loadF64 rd) rfl rfl (fun _ => rfl) imm rest
  | loadNone rd => exact decode_loadNone (by decide) rd rest
  | add ra rb rd => exact decodeR3_cons .add ra rb rd rest
  | sub ra rb rd => exact decodeR3_cons .sub ra rb rd rest
  | mul ra rb rd => exact decodeR3_cons .mul ra rb rd rest
  | div ra rb rd => exact decodeR3_cons .div ra rb rd rest
  | illegal op => exact decode_illegal (of_decide_eq_true hwf) rest

/-! ### Encoding what was decoded -/

theorem leBytes_ofNat_leNat {w : Nat} (p : List Byte) (hw : 256 ^ p.length = 2 ^ w) :
    leBytes p.length (BitVec.ofNat w (leNat p)).toNat = p := by
  rw [BitVec.toNat_ofNat, ← hw, Nat.mod_eq_of_lt (leNat_lt p), leBytes_leNat]

theorem beBytes_ofNat_beNat {w : Nat} (p : List Byte) (hw : 256 ^ p.length = 2 ^ w) :
    beBytes p.length (BitVec.ofNat w (beNat p)).toNat = p := by
  have hlt : beNat p < 256 ^ p.length := by
    rw [← List.length_reverse]
    exact leNat_lt p.reverse
  rw [BitVec.toNat_ofNat, ← hw, Nat.mod_eq_of_lt hlt, beBytes_beNat]

/-- A LOAD with a typed tag encodes as the bytes it was read from. -/
theorem encode_loadOf_of_lt {tag : Byte} (h : tag.toNat < 0x0A) (rd : Byte) (p : List Byte)
    (hp : p.length = payloadWidth tag) : encode (loadOf rd tag p) = 0x01 :: rd :: tag :: p := by
  have htag : tag = BitVec.ofNat 8 tag.toNat := by rw [BitVec.ofNat_toNat, BitVec.setWidth_eq]
  generalize tag.toNat = n at h htag
  subst htag
  have le (w : Nat) (hw : 256 ^ p.length = 2 ^ w) := leBytes_ofNat_leNat p hw
  have be (w : Nat) (hw : 256 ^ p.length = 2 ^ w) := beBytes_ofNat_beNat p hw
  rw [hp] at le be
  interval_cases n
  · exact congrArg (0x01 :: rd :: 0x00 :: ·) (le 8 rfl)
  · exact congrArg (0x01 :: rd :: 0x01 :: ·) (le 8 rfl)
  · exact congrArg (0x01 :: rd :: 0x02 :: ·) (be 16 rfl)
  · exact congrArg (0x01 :: rd :: 0x03 :: ·) (be 16 rfl)
  · exact congrArg (0x01 :: rd :: 0x04 :: ·) (le 32 rfl)
  · exact congrArg (0x01 :: rd :: 0x05 :: ·) (le 32 rfl)
  · exact congrArg (0x01 :: rd :: 0x06 :: ·) (le 64 rfl)
  · exact congrArg (0x01 :: rd :: 0x07 :: ·) (le 64 rfl)
  · exact congrArg (0x01 :: rd :: 0x08 :: ·) (le 32 rfl)
  · exact congrArg (0x01 :: rd :: 0x09 :: ·) (le 64 rfl)

/-- Every LOAD is well formed, whatever its tag. -/
theorem wf_loadOf (rd tag : Byte) (p : List Byte) : (loadOf rd tag p).wf = true := by
  unfold loadOf
  split <;> rfl

theorem decodeLoad_eq_ok {rest : List Byte} {i : Instr} (h : decodeLoad rest = .ok i) :
    ∃ rd tag p post, rest = rd :: tag :: (p ++ post) ∧ p.length = payloadWidth tag ∧ i = loadOf rd tag p := by
  unfold decodeLoad at h
  split at h
  · rename_i rd tag rest
    split at h
    · rename_i hlen
      cases h
      exact ⟨rd, tag, _, rest.drop (payloadWidth tag), by rw [List.take_append_drop],
        List.length_take_of_le hlen, rfl⟩
    · cases h
  · cases h

theorem decodeR3_eq_ok {mk : Byte → Byte → Byte → Instr} {rest : List Byte} {i : Instr} (h : decodeR3 mk rest = .ok i) :
    ∃ ra rb rd post, rest = ra :: rb :: rd :: post ∧ i = mk ra rb rd := by
  unfold decodeR3 at h
  split at h
  · cases h
    exact ⟨_, _, _, _, rfl, rfl⟩
  · cases h

/-- What the bytes of a decoded instruction are, by format (30_encoding.md R71 to R74). -/
theorem decode_eq_ok {bs : List Byte} {i : Instr} (h : decode bs = .ok i) :
    (∃ post, bs = 0x00 :: post ∧ i = .halt) ∨
      (∃ rd tag p post, bs = 0x01 :: rd :: tag :: (p ++ post) ∧ p.length = payloadWidth tag ∧ i = loadOf rd tag p) ∨
      (∃ op ra rb rd post, i = ArithOp.instr op ra rb rd ∧ bs = encode i ++ post) ∨
      ∃ op post, 6 ≤ op.toNat ∧ bs = op :: post ∧ i = .illegal op := by
  cases bs with
  | nil => cases h
  | cons b rest =>
    rcases decode_cases b rest with ⟨rfl, hd⟩ | ⟨rfl, hd⟩ | ⟨rfl, hd⟩ | ⟨rfl, hd⟩ | ⟨rfl, hd⟩ | ⟨rfl, hd⟩ | ⟨hb, hd⟩ <;>
      rw [hd] at h
    · cases h
      exact .inl ⟨rest, rfl, rfl⟩
    · obtain ⟨rd, tag, p, post, rfl, hp, rfl⟩ := decodeLoad_eq_ok h
      exact .inr (.inl ⟨rd, tag, p, post, rfl, hp, rfl⟩)
    · obtain ⟨ra, rb, rd, post, rfl, rfl⟩ := decodeR3_eq_ok h
      exact .inr (.inr (.inl ⟨.add, ra, rb, rd, post, rfl, rfl⟩))
    · obtain ⟨ra, rb, rd, post, rfl, rfl⟩ := decodeR3_eq_ok h
      exact .inr (.inr (.inl ⟨.sub, ra, rb, rd, post, rfl, rfl⟩))
    · obtain ⟨ra, rb, rd, post, rfl, rfl⟩ := decodeR3_eq_ok h
      exact .inr (.inr (.inl ⟨.mul, ra, rb, rd, post, rfl, rfl⟩))
    · obtain ⟨ra, rb, rd, post, rfl, rfl⟩ := decodeR3_eq_ok h
      exact .inr (.inr (.inl ⟨.div, ra, rb, rd, post, rfl, rfl⟩))
    · cases h
      exact .inr (.inr (.inr ⟨b, rest, hb, rfl, rfl⟩))

/-- Bytes that decode begin with the encoding of what they decode to, but for the tag byte of a LOAD of None. -/
theorem decode_eq_ok_append {bs : List Byte} {i : Instr} (h : decode bs = .ok i) :
    i.wf = true ∧ ∃ head post, bs = head ++ post ∧ head.length = i.length ∧
      (head = encode i ∨ ∃ rd tag : Byte, i = .loadNone rd ∧ 10 ≤ tag.toNat ∧ head = [0x01, rd, tag]) := by
  rcases decode_eq_ok h with ⟨post, rfl, rfl⟩ | ⟨rd, tag, p, post, rfl, hp, rfl⟩ | ⟨op, ra, rb, rd, post, rfl, rfl⟩ |
    ⟨op, post, hop, rfl, rfl⟩
  · exact ⟨rfl, _, post, rfl, length_encode .halt, .inl rfl⟩
  · refine ⟨wf_loadOf rd tag p, 0x01 :: rd :: tag :: p, post, rfl, ?_, ?_⟩
    · rw [length_loadOf, ← hp, List.length_cons, List.length_cons, List.length_cons]
      omega
    · rcases Nat.lt_or_ge tag.toNat 0x0A with htyped | hnone
      · exact .inl (encode_loadOf_of_lt htyped rd p hp).symm
      · rw [payloadWidth_of_ge hnone, List.length_eq_zero_iff] at hp
        exact .inr ⟨rd, tag, loadOf_of_ge hnone rd p, hnone, by rw [hp]⟩
  · exact ⟨by cases op <;> rfl, _, post, rfl, length_encode _, .inl rfl⟩
  · exact ⟨decide_eq_true hop, _, post, rfl, length_encode (.illegal op), .inl rfl⟩

/-- An instruction is no longer than the bytes it was read from. -/
theorem length_le_of_decode {bs : List Byte} {i : Instr} (h : decode bs = .ok i) : i.length ≤ bs.length := by
  obtain ⟨-, head, post, rfl, hlen, -⟩ := decode_eq_ok_append h
  rw [List.length_append]
  omega

/-- Settles O8, from `decode_eq_ok_append`. -/
theorem decodedBytesAreTheEncoding : Obligations.DecodedBytesAreTheEncoding := by
  intro bs i h
  refine ⟨(decode_eq_ok_append h).1, length_le_of_decode h, ?_⟩
  obtain ⟨-, head, post, rfl, hlen, hhead⟩ := decode_eq_ok_append h
  rwa [List.take_left' hlen]

/-! ### Truncation -/

theorem decodeLoad_eq_error_iff (rest : List Byte) : decodeLoad rest = .error .outOfBounds ↔
    rest.length < 2 ∨ ∃ rd tag p, rest = rd :: tag :: p ∧ p.length < payloadWidth tag := by
  match rest with
  | [] | [_] => simp [decodeLoad]
  | rd :: tag :: p =>
    rw [decodeLoad]
    split
    · simp_all
    · simp_all

theorem decodeR3_eq_error_iff (mk : Byte → Byte → Byte → Instr) (rest : List Byte) :
    decodeR3 mk rest = .error .outOfBounds ↔ rest.length < 3 := by
  match rest with
  | [] | [_] | [_, _] | _ :: _ :: _ :: _ => simp [decodeR3]

/-- Settles O9, opcode by opcode. -/
theorem decodeFailsOnlyWhenTruncated : Obligations.DecodeFailsOnlyWhenTruncated := by
  refine ⟨rfl, fun op rest => ⟨?_, fun h => ?_⟩⟩
  · rcases decode_cases op rest with ⟨rfl, hd⟩ | ⟨rfl, hd⟩ | ⟨rfl, hd⟩ | ⟨rfl, hd⟩ | ⟨rfl, hd⟩ | ⟨rfl, hd⟩ | ⟨hop, hd⟩ <;>
      rw [hd]
    · simp
    · simp [decodeLoad_eq_error_iff]
    · simp [decodeR3_eq_error_iff]
    · simp [decodeR3_eq_error_iff]
    · simp [decodeR3_eq_error_iff]
    · simp [decodeR3_eq_error_iff]
    · have hne : op ≠ 1#8 := by rintro rfl; simp at hop
      have hgt : ¬ op.toNat ≤ 5 := by omega
      simp [hne, hgt]
  · rcases hd : decode (op :: rest) with ⟨⟨⟩⟩ | i
    · exact absurd hd h
    · exact ⟨i, rfl⟩

/-! ### The opcode table -/

/-- An opcode other than LOAD's selects its rows by itself. -/
theorem rowsSelected_of_ne_load {op : Byte} (h : op ≠ 0x01) (rest : List Byte) :
    rowsSelected (op :: rest) = rowsSelected [op] := by
  have hload : decide (op &&& 0xFF#8 = 0x01#8) = false := by
    rw [decide_eq_false_iff_not, show (0xFF#8 : Byte) = BitVec.allOnes 8 from rfl, BitVec.and_allOnes]
    exact h
  have hsel : ∀ r ∈ opcodeTable, r.selects (op :: rest) = r.selects [op] := by
    simp [opcodeTable, OpcodeRow.selects, loadRow, fitsPattern, hload]
  rw [rowsSelected, rowsSelected, List.filter_congr hsel]

/-- A LOAD selects its rows by its tag. -/
theorem rowsSelected_load (rd tag : Byte) (rest : List Byte) :
    rowsSelected (0x01 :: rd :: tag :: rest) = rowsSelected [0x01, 0x00, tag] := by
  have hsel : ∀ r ∈ opcodeTable, r.selects (0x01 :: rd :: tag :: rest) = r.selects [0x01, 0x00, tag] := by
    simp [opcodeTable, OpcodeRow.selects, loadRow, fitsPattern]
  rw [rowsSelected, rowsSelected, List.filter_congr hsel]

theorem rowsSelected_tag : ∀ tag : Byte, rowsSelected [0x01, 0x00, tag] = [(loadOf 0 tag []).mnemonic] := by
  decide +kernel

theorem rowsSelected_illegal : ∀ op : Byte, 6 ≤ op.toNat → rowsSelected [op] = ["ILLEGAL"] := by
  decide +kernel

/-- The row of a LOAD is fixed by its tag. -/
theorem mnemonic_loadOf (rd tag : Byte) (p : List Byte) : (loadOf rd tag p).mnemonic = (loadOf 0 tag []).mnemonic := by
  unfold loadOf
  split <;> rfl

/-- Settles O13, format by format: an opcode other than LOAD's fixes the row, and LOAD's tag does. -/
theorem opcodeTableSelectsTheDecodedRow : Obligations.OpcodeTableSelectsTheDecodedRow := by
  intro bs i h
  rcases decode_eq_ok h with ⟨post, rfl, rfl⟩ | ⟨rd, tag, p, post, rfl, hp, rfl⟩ | ⟨op, ra, rb, rd, post, rfl, rfl⟩ |
    ⟨op, post, hop, rfl, rfl⟩
  · rw [rowsSelected_of_ne_load (by decide)]
    rfl
  · rw [rowsSelected_load, rowsSelected_tag, mnemonic_loadOf rd tag p]
  · cases op <;> exact rowsSelected_of_ne_load (by decide) _
  · have hne : op ≠ 0x01 := by rintro rfl; simp at hop
    rw [rowsSelected_of_ne_load hne, rowsSelected_illegal op hop]
    rfl

end Sys2Proof
end

section
/-! HALT, ILLEGAL and LOAD: each execution with its whole next state, and the steps that reach one. -/

namespace Sys2Proof.Machine

/-! ### The ends of a step before an execution -/

/-- Settles O15: `step_of_decode` is this statement. -/
theorem stepRunsTheDecodedInstruction : Obligations.StepRunsTheDecodedInstruction :=
  fun _ _ hs hwf hpc hd => step_of_decode hs hwf hpc hd

/-- Settles O16: of the shapes of a step only the empty program's is possible. -/
theorem emptyProgramStepFaults : Obligations.EmptyProgramStepFaults := by
  intro s hs hlen
  rcases step_cases s with ⟨hstop, -⟩ | ⟨-, -, hstep⟩ | ⟨-, hpos, -⟩ | ⟨-, hpc, -⟩
  · exact absurd hstop hs
  · exact hstep
  · omega
  · omega

/-- Settles O18: the window the step decodes fails where the rest of the program does, since the decoder looks at no
byte past the longest instruction. -/
theorem truncatedInstructionFaults : Obligations.TruncatedInstructionFaults := by
  intro s e hs hwf hpc hd
  have hw : decode (s.prog.window s.pc maxLength) = .error e := by
    rw [Memory.window_of_wf _ hwf, decode_take_maxLength, hd]
  rcases step_cases s with ⟨hstop, -⟩ | ⟨-, hempty, -⟩ | ⟨-, -, hend, -⟩ | ⟨-, -, ⟨e', -, hstep⟩ | ⟨i, hi, -⟩⟩
  · exact absurd hstop hs
  · omega
  · omega
  · exact hstep
  · rw [hw] at hi; cases hi

/-! ### HALT and ILLEGAL -/

theorem exec_halt (s : State) : exec .halt s = .next (endStep .halted s.pc (emitDiag .haltNotice s.pc (advance 1 s))) :=
  rfl

theorem exec_illegal (op : Byte) (s : State) :
    exec (.illegal op) s = .next (endStep .illegalOpcode s.pc (emitDiag .illegalNotice s.pc (advance 1 s))) :=
  rfl

/-- Settles O27: the notice, then the benign stop, written out field by field. -/
theorem haltAndIllegalStopWithNotice : Obligations.HaltAndIllegalStopWithNotice :=
  fun op s => ⟨exec_halt s, exec_illegal op s, rfl, rfl⟩

/-- Settles O12, from the decode of an illegal opcode and from its execution. -/
theorem illegalSpaceDecodesAndStops : Obligations.IllegalSpaceDecodesAndStops :=
  fun op rest s hop => ⟨decode_illegal hop rest, rfl, _, exec_illegal op s, rfl, rfl, rfl⟩

/-- Settles O14: the six byte strings are closed terms. -/
theorem writtenOutWordsDecode : Obligations.WrittenOutWordsDecode := by
  refine ⟨?halt, ?loadI32, ?loadU16, ?loadNone, ?div, ?illegal⟩
  all_goals decide

/-! ### LOAD -/

theorem runLoad_of_ge {rd : Byte} (h : 32 ≤ rd.toNat) (v : Value) (n : Nat) (s : State) :
    runLoad rd v n s = s.ended n .indexOutOfRange :=
  writeResult_of_ge rd h v 0 s.pc (advance n s)

/-- Settles O28: every LOAD is the one operation `runLoad`, whose write is in range. -/
theorem loadWritesItsTypedImmediate : Obligations.LoadWritesItsTypedImmediate :=
  fun _ _ _ s hi h => exec_load_of_lt hi h s

/-- Settles O29: every LOAD is the one operation `runLoad`, whose write is out of range. -/
theorem loadIndexOutOfRangeFaults : Obligations.LoadIndexOutOfRangeFaults := by
  intro i rd v s hi h
  rw [exec_of_loaded hi, runLoad_of_ge h]

/-- Settles O31: the bytes decode under each of these tags to a LOAD, and the step writes what it loads. -/
theorem stepLoadsWidePayloads : Obligations.StepLoadsWidePayloads := by
  intro s rd p0 p1 p2 p3 p4 p5 p6 p7 rest h hs hwf
  refine ⟨?u32, ?i32, ?f32, ?u64, ?i64, ?f64⟩
  case u32 => exact fun hb => step_load_of_bytes hs hwf h hb (decode_loadU32 rd p0 p1 p2 p3 rest) rfl
  case i32 => exact fun hb => step_load_of_bytes hs hwf h hb (decode_loadI32 rd p0 p1 p2 p3 rest) rfl
  case f32 => exact fun hb => step_load_of_bytes hs hwf h hb (decode_loadF32 rd p0 p1 p2 p3 rest) rfl
  case u64 => exact fun hb => step_load_of_bytes hs hwf h hb (decode_loadU64 rd p0 p1 p2 p3 p4 p5 p6 p7 rest) rfl
  case i64 => exact fun hb => step_load_of_bytes hs hwf h hb (decode_loadI64 rd p0 p1 p2 p3 p4 p5 p6 p7 rest) rfl
  case f64 => exact fun hb => step_load_of_bytes hs hwf h hb (decode_loadF64 rd p0 p1 p2 p3 p4 p5 p6 p7 rest) rfl

end Sys2Proof.Machine
end

section
/-! What every execution and every step keeps: the invariant, the registers but one, the notices but HALT's and
ILLEGAL's; and what no execution depends on. -/

namespace Sys2Proof.Machine

/-! ### The invariant -/

/-- A stop or a fault of a state within its program meets the invariant. -/
theorem inv_endStep {c : StopCause} {off : Nat} {s : State} (hc : c ≠ .none) (hwf : s.prog.wf = true)
    (hpc : s.pc ≤ s.prog.length) (hoff : off ≤ s.pc) : (endStep c off s).Inv where
  progWf := hwf
  pcLe := hpc
  causeIff := iff_of_false hc (fun h => h rfl)
  addrZero h := absurd rfl h
  addrLe := hoff
  readyPc h := by cases h

/-- An instruction completed by an engine that was not Stopped keeps the invariant. -/
theorem inv_complete {i n d : Nat} {v : Value} {s : State} (h : i < 32) (hs : s.Inv) (hrun : s.runState ≠ .stopped)
    (hpc : s.pc + n ≤ s.prog.length) : (complete (takeDraws d (setReg i h v (advance n s)))).Inv where
  progWf := hs.progWf
  pcLe := hpc
  causeIff := iff_of_true (hs.causeIff.2 hrun) (by rw [complete_runState]; decide)
  addrZero _ := hs.addrZero hrun
  addrLe := hs.addrLe.trans (Nat.le_add_right s.pc n)
  readyPc h := by cases h

/-- Executing an instruction whose bytes lie within the program keeps the invariant. -/
theorem exec_inv {i : Instr} {s t : State} (hs : s.Inv) (hrun : s.runState ≠ .stopped)
    (hpc : s.pc + i.length ≤ s.prog.length) (h : exec i s = .next t) : t.Inv := by
  have hoff : s.pc ≤ s.pc + i.length := Nat.le_add_right ..
  rcases exec_cases i s with ⟨c, k, he, -, hnotice⟩ | ⟨c, hc, he, -⟩ | ⟨rd, hrd, v, d, he, -⟩ <;>
    obtain rfl := Host.Outcome.next.inj (he.symm.trans h)
  · have hc : c ≠ .none := by rcases hnotice with ⟨-, rfl, -⟩ | ⟨op, -, rfl, -⟩ <;> decide
    exact inv_endStep hc hs.progWf hpc hoff
  · exact inv_endStep hc hs.progWf hpc hoff
  · exact inv_complete hrd hs hrun hpc

/-- The bytes of an instruction decoded at `pc` lie within a canonical program. -/
theorem pc_add_length_le {s : State} {i : Instr} (hwf : s.prog.wf = true) (hpc : s.pc ≤ s.prog.length)
    (hd : decode (s.prog.window s.pc maxLength) = .ok i) : s.pc + i.length ≤ s.prog.length := by
  have hlen := length_le_of_decode hd
  rw [Memory.window_of_wf _ hwf, List.length_take, List.length_drop, Memory.length_bytes] at hlen
  omega

theorem step_inv {s t : State} (hs : s.Inv) (h : step s = .next t) : t.Inv := by
  rcases step_cases s with ⟨-, he⟩ | ⟨-, -, he⟩ | ⟨-, -, -, he⟩ | ⟨hrun, hpc, ⟨e, -, he⟩ | ⟨i, hd, he⟩⟩ <;> rw [he] at h
  · cases h
    exact hs
  · cases h
    exact inv_endStep (by decide) hs.progWf hs.pcLe (Nat.zero_le _)
  · cases h
    exact inv_endStep (by decide) hs.progWf hs.pcLe le_rfl
  · cases h
    exact inv_endStep (by decide) hs.progWf hs.pcLe le_rfl
  · exact exec_inv hs hrun (pc_add_length_le hs.progWf hs.pcLe hd) h

/-- Settles O4: `step_inv` is this statement. -/
theorem stepKeepsInvariant : Obligations.StepKeepsInvariant := fun _ _ hs h => step_inv hs h

/-! ### Completions and stops -/

/-- Every execution answers a next state, Running or Stopped. -/
theorem exec_next (i : Instr) (s : State) :
    ∃ t, exec i s = .next t ∧ (t.runState = .running ∨ t.runState = .stopped) := by
  rcases exec_cases i s with ⟨c, k, he, -⟩ | ⟨c, -, he, -⟩ | ⟨rd, hrd, v, d, he, -⟩
  · exact ⟨_, he, .inr (endStep_runState ..)⟩
  · exact ⟨_, he, .inr (endStep_runState ..)⟩
  · exact ⟨_, he, .inl (complete_runState _)⟩

/-- Settles O19, from the shapes of a step and `exec_next`. -/
theorem everyStepAnswersNext : Obligations.EveryStepAnswersNext := by
  intro s
  rcases step_cases s with ⟨hs, he⟩ | ⟨hs, -, he⟩ | ⟨hs, -, -, he⟩ | ⟨hs, -, ⟨e, -, he⟩ | ⟨i, -, he⟩⟩
  · exact ⟨s, he, fun _ => rfl, fun h => absurd hs h⟩
  · exact ⟨_, he, fun h => absurd h hs, fun _ => .inr (endStep_runState ..)⟩
  · exact ⟨_, he, fun h => absurd h hs, fun _ => .inr (endStep_runState ..)⟩
  · exact ⟨_, he, fun h => absurd h hs, fun _ => .inr (endStep_runState ..)⟩
  · obtain ⟨t, ht, hrun⟩ := exec_next i s
    exact ⟨t, he.trans ht, fun h => absurd h hs, fun _ => hrun⟩

theorem step_next (s : State) : ∃ t, step s = .next t :=
  let ⟨t, h, _⟩ := everyStepAnswersNext s
  ⟨t, h⟩

/-- An execution that leaves the engine Running wrote one register, the destination of its instruction, and moved the
counter; the instruction is none of the one-byte ones. -/
theorem exec_running {i : Instr} {s t : State} (h : exec i s = .next t) (hrun : t.runState = .running) :
    ∃ (rd : Byte) (hrd : rd.toNat < 32) (v : Value) (d : Nat), i.hasDest rd ∧ 3 ≤ i.length ∧
      t = complete (takeDraws d (setReg rd.toNat hrd v (advance i.length s))) := by
  rcases exec_cases i s with ⟨c, k, he, -⟩ | ⟨c, -, he, -⟩ | ⟨rd, hrd, v, d, he, hlen, hdest⟩ <;>
    obtain rfl := Host.Outcome.next.inj (he.symm.trans h)
  · cases hrun
  · cases hrun
  · exact ⟨rd, hrd, v, d, hdest, hlen, rfl⟩

/-- Settles O20, from `exec_next` and `exec_running`; HALT and ILLEGAL are too short to complete. -/
theorem onlyLoadAndArithmeticComplete : Obligations.OnlyLoadAndArithmeticComplete := by
  intro i s t h
  obtain ⟨t', ht', hstate⟩ := exec_next i s
  obtain rfl := Host.Outcome.next.inj (ht'.symm.trans h)
  refine ⟨hstate, ?flag, ?running, ?stops⟩
  case flag =>
    rcases hstate with hr | hr <;> simp [shouldStop, hr]
  case running =>
    intro hrun
    obtain ⟨rd, -, -, -, ⟨v, hload⟩ | ⟨op, ra, rb, rfl⟩, -⟩ := exec_running h hrun
    · exact .inl (by rw [hload]; exact Option.some_ne_none _)
    · exact .inr ⟨op, ra, rb, rd, rfl⟩
  case stops =>
    intro hi
    refine hstate.resolve_left fun hrun => ?_
    obtain ⟨-, -, -, -, -, hlen, -⟩ := exec_running h hrun
    rcases hi with rfl | ⟨op, rfl⟩ <;> simp [Instr.length] at hlen

/-! ### Registers -/

/-- An execution that stops writes no register and takes no draw (40_cycle_and_host.md R109). -/
theorem exec_stopped {i : Instr} {s t : State} (h : exec i s = .next t) (hstop : t.runState = .stopped) :
    t.regs = s.regs ∧ t.nanDraws = s.nanDraws := by
  rcases exec_cases i s with ⟨c, k, he, -⟩ | ⟨c, -, he, -⟩ | ⟨rd, hrd, v, d, he, -⟩ <;>
    obtain rfl := Host.Outcome.next.inj (he.symm.trans h)
  · exact ⟨rfl, rfl⟩
  · exact ⟨rfl, rfl⟩
  · cases hstop

/-- A step writes no program byte (20_memory.md R55). -/
theorem step_prog {s t : State} (h : step s = .next t) : t.prog = s.prog := by
  rcases step_cases s with ⟨-, he⟩ | ⟨-, -, he⟩ | ⟨-, -, -, he⟩ | ⟨-, -, ⟨e, -, he⟩ | ⟨i, -, he⟩⟩ <;> rw [he] at h
  case inr.inr.inr.inr => exact exec_prog h
  all_goals
    cases h
    rfl

/-- A step that ends before an execution changes the status registers alone, and an execution that stops writes no
register. -/
theorem step_stopped {s t : State} (h : step s = .next t) (hstop : t.runState = .stopped) :
    t.regs = s.regs ∧ t.nanDraws = s.nanDraws := by
  rcases step_cases s with ⟨-, he⟩ | ⟨-, -, he⟩ | ⟨-, -, -, he⟩ | ⟨-, -, ⟨e, -, he⟩ | ⟨i, -, he⟩⟩ <;> rw [he] at h
  case inr.inr.inr.inr => exact exec_stopped h hstop
  all_goals
    cases h
    exact ⟨rfl, rfl⟩

/-- Settles O24, from `step_stopped` and `step_prog`. -/
theorem stoppingStepWritesNoRegister : Obligations.StoppingStepWritesNoRegister := by
  intro s t h hstop
  obtain ⟨hregs, hdraws⟩ := step_stopped h hstop
  exact ⟨hregs, step_prog h, hdraws⟩

/-- A completion writes its destination and no other register. -/
theorem readReg_complete_other {i j n d : Nat} {v : Value} {s : State} (h : i < 32) (hne : j ≠ i) :
    readReg j (complete (takeDraws d (setReg i h v (advance n s)))) = readReg j s :=
  readReg_setReg_other i j h hne v (advance n s)

/-- Settles O23: a step that ends before an execution writes nothing, and an execution stops, writing nothing, or
completes by writing its destination. -/
theorem stepWritesAtMostOneRegister : Obligations.StepWritesAtMostOneRegister := by
  intro s t h
  rcases step_cases s with ⟨-, he⟩ | ⟨-, -, he⟩ | ⟨-, -, -, he⟩ | ⟨hs, -, ⟨e, -, he⟩ | ⟨i, hd, he⟩⟩ <;> rw [he] at h
  case inr.inr.inr.inr =>
    obtain ⟨t', ht', hrun | hstop⟩ := exec_next i s <;> obtain rfl := Host.Outcome.next.inj (ht'.symm.trans h)
    · obtain ⟨rd, hrd, v, d, hdest, -, rfl⟩ := exec_running h hrun
      exact .inr ⟨i, rd, hs, hd, hdest, hrd, hrun, fun j hj => readReg_complete_other hrd hj⟩
    · exact .inl (exec_stopped h hstop).1
  all_goals
    cases h
    exact .inl rfl

/-! ### Notices -/

@[simp] theorem Memory.head?_window (m : Memory) (a n : Nat) : (m.window a (n + 1)).head? = m.read a := by
  rw [Memory.window]
  split <;> simp_all

/-- The byte at `pc` is the opcode of the instruction decoded there. -/
theorem read_of_decode_window {m : Memory} {a : Nat} {i : Instr} (hd : decode (m.window a maxLength) = .ok i) :
    m.read a = (encode i).head? := by
  obtain ⟨-, head, post, hw, -, hhead⟩ := decode_eq_ok_append hd
  rw [← Memory.head?_window m a 10, show (m.window a (10 + 1)) = head ++ post from hw]
  rcases hhead with rfl | ⟨rd, tag, rfl, -, rfl⟩
  · cases i <;> rfl
  · rfl

/-- Settles O25: the only executions that emit a notice are the one-byte ones, and `read_of_decode_window` gives their
opcode. -/
theorem onlyHaltAndIllegalEmitNotices : Obligations.OnlyHaltAndIllegalEmitNotices := by
  intro s t h
  rcases step_cases s with ⟨-, he⟩ | ⟨-, -, he⟩ | ⟨-, -, -, he⟩ | ⟨-, -, ⟨e, -, he⟩ | ⟨i, hd, he⟩⟩ <;> rw [he] at h
  case inr.inr.inr.inr =>
    have hread := read_of_decode_window hd
    rcases exec_cases i s with ⟨c, k, hx, -, hi⟩ | ⟨c, -, hx, -⟩ | ⟨rd, hrd, v, d, hx, -⟩ <;>
      obtain rfl := Host.Outcome.next.inj (hx.symm.trans h)
    · rcases hi with ⟨rfl, rfl, rfl⟩ | ⟨op, rfl, rfl, rfl⟩
      · exact .inr (.inl ⟨hread, rfl, rfl⟩)
      · exact .inr (.inr ⟨⟨op, hread, of_decide_eq_true (decode_eq_ok_append hd).1⟩, rfl, rfl⟩)
    · exact .inl rfl
    · exact .inl rfl
  all_goals
    cases h
    exact .inl rfl

/-! ### Noninterference -/

/-- Two states with the same registers and draws, and the same verdict on the step that led to them. -/
def SameEffect (t u : State) : Prop :=
  u.regs = t.regs ∧ u.runState = t.runState ∧ (t.runState = .stopped → u.stopCause = t.stopCause) ∧
    u.nanDraws = t.nanDraws

section

variable {s s' : State} (hregs : s'.regs = s.regs) (hdraws : s'.nanDraws = s.nanDraws)

include hregs hdraws

theorem sameEffect_endStep (c : StopCause) (off off' n n' : Nat) :
    SameEffect (endStep c off (advance n s)) (endStep c off' (advance n' s')) :=
  ⟨hregs, rfl, fun _ => rfl, hdraws⟩

theorem sameEffect_writeResult (rd : Byte) (v : Value) (d off off' n n' : Nat) :
    SameEffect (writeResult rd v d off (advance n s)) (writeResult rd v d off' (advance n' s')) := by
  rcases Nat.lt_or_ge rd.toNat 32 with h | h
  · rw [writeResult_of_lt rd h, writeResult_of_lt rd h]
    refine ⟨?_, rfl, (by rintro ⟨⟩), ?_⟩
    · simp only [complete_regs, takeDraws_regs, setReg_regs, advance_regs, hregs]
    · simp only [complete_nanDraws, takeDraws_nanDraws, setReg_nanDraws, advance_nanDraws, hdraws]
  · rw [writeResult_of_ge rd h, writeResult_of_ge rd h]
    exact sameEffect_endStep hregs hdraws ..

theorem sameEffect_runR3 (op : ArithOp) (c : StopCause) (ra rb rd : Byte) :
    SameEffect (runR3 op (endStep c) ra rb rd s) (runR3 op (endStep c) ra rb rd s') := by
  have ha : readReg ra.toNat (advance 4 s') = readReg ra.toNat (advance 4 s) := readReg_congr _ _ _ hregs
  have hb : readReg rb.toNat (advance 4 s') = readReg rb.toNat (advance 4 s) := readReg_congr _ _ _ hregs
  simp only [runR3, ha, hb, advance_nanDraws, hdraws]
  split
  · split
    · exact sameEffect_endStep hregs hdraws ..
    · exact sameEffect_endStep hregs hdraws ..
    · exact sameEffect_writeResult hregs hdraws ..
  · exact sameEffect_endStep hregs hdraws ..

end

/-- A three-register instruction is one operation, told apart by its arithmetic and by what a mismatch records. -/
theorem exec_instr (op : ArithOp) (ra rb rd : Byte) (s : State) :
    exec (op.instr ra rb rd) s = .next (runR3 op (endStep op.mismatchCause) ra rb rd s) := by
  cases op <;> rfl

/-- Every instruction is HALT, ILLEGAL, a LOAD or a three-register operation. -/
theorem instr_cases (i : Instr) : i = .halt ∨ (∃ op, i = .illegal op) ∨ (∃ rd v, i.loaded = some (rd, v)) ∨
    ∃ op ra rb rd, i = ArithOp.instr op ra rb rd := by
  cases i with
  | halt => exact .inl rfl
  | illegal op => exact .inr (.inl ⟨op, rfl⟩)
  | add ra rb rd => exact .inr (.inr (.inr ⟨.add, ra, rb, rd, rfl⟩))
  | sub ra rb rd => exact .inr (.inr (.inr ⟨.sub, ra, rb, rd, rfl⟩))
  | mul ra rb rd => exact .inr (.inr (.inr ⟨.mul, ra, rb, rd, rfl⟩))
  | div ra rb rd => exact .inr (.inr (.inr ⟨.div, ra, rb, rd, rfl⟩))
  | _ => exact .inr (.inr (.inl ⟨_, _, rfl⟩))

/-- An execution looks at the registers and the draw number alone (10_state.md section 6). -/
theorem sameEffect_exec {i : Instr} {s s' t u : State} (hregs : s'.regs = s.regs) (hdraws : s'.nanDraws = s.nanDraws)
    (ht : exec i s = .next t) (hu : exec i s' = .next u) : SameEffect t u := by
  rcases instr_cases i with rfl | ⟨op, rfl⟩ | ⟨rd, v, hi⟩ | ⟨op, ra, rb, rd, rfl⟩
  · cases ht; cases hu
    exact ⟨hregs, rfl, fun _ => rfl, hdraws⟩
  · cases ht; cases hu
    exact ⟨hregs, rfl, fun _ => rfl, hdraws⟩
  · rw [exec_of_loaded hi] at ht hu
    cases ht; cases hu
    exact sameEffect_writeResult hregs hdraws ..
  · rw [exec_instr] at ht hu
    cases ht; cases hu
    exact sameEffect_runR3 hregs hdraws ..

/-- Settles O26: the two states have the same registers and draw number. -/
theorem instructionsDoNotObserveStatus : Obligations.InstructionsDoNotObserveStatus :=
  fun _ s pc prog run cause addr diag _ _ ht hu =>
    sameEffect_exec (s := s)
      (s' := { s with pc := pc, prog := prog, runState := run, stopCause := cause, stopAddr := addr, diag := diag })
      rfl rfl ht hu

end Sys2Proof.Machine
end

section
/-! The run driver: it repeats the step, and it ends Stopped within the bound of 40_cycle_and_host.md R113. -/

namespace Sys2Proof.Machine

@[simp] theorem shouldStop_eq_true_iff (s : State) : shouldStop s = true ↔ s.runState = .stopped := decide_eq_true_iff

/-- A step that does not stop decoded an instruction before the last byte and moved `pc` up by at least three. -/
theorem step_not_stopped {s t : State} (h : step s = .next t) (hrun : t.runState ≠ .stopped) :
    s.pc + 2 ≤ s.prog.length ∧ s.pc + 3 ≤ t.pc := by
  rcases step_cases s with ⟨hs, he⟩ | ⟨-, -, he⟩ | ⟨-, -, -, he⟩ | ⟨-, hpc, ⟨e, -, he⟩ | ⟨i, -, he⟩⟩ <;> rw [he] at h
  · cases h
    exact absurd hs hrun
  case inr.inr.inr.inr =>
    obtain ⟨t', ht', hstate⟩ := exec_next i s
    obtain rfl := Host.Outcome.next.inj (ht'.symm.trans h)
    obtain ⟨-, -, -, -, -, hlen, -⟩ := exec_running h (hstate.resolve_right hrun)
    rw [exec_pc h]
    omega
  all_goals
    cases h
    exact absurd (endStep_runState ..) hrun

/-- A property that every step keeps is kept by the run driver, whatever its bound. -/
theorem runSteps_induction {P : State → Prop} (hstep : ∀ s t, P s → step s = .next t → P t) {k : Nat} {s t : State}
    (hs : P s) (h : runSteps k s = .next t) : P t := by
  induction k generalizing s with
  | zero =>
    cases h
    exact hs
  | succ k ih =>
    obtain ⟨u, hu⟩ := step_next s
    rw [runSteps_succ k s u hu] at h
    split at h
    · cases h
      exact hstep s t hs hu
    · exact ih (hstep s u hs hu) h

/-- Each step that does not stop moves `pc` by three and a step at the end stops, so `k + 1` steps that could cover the
rest of the program end Stopped, and allowing more steps changes nothing. -/
theorem runSteps_stops (k : Nat) (s : State) (hk : s.prog.length + 2 ≤ s.pc + 3 * (k + 1)) :
    ∃ t, t.runState = .stopped ∧ ∀ m, k + 1 ≤ m → runSteps m s = .next t := by
  induction k generalizing s with
  | zero =>
    obtain ⟨u, hu⟩ := step_next s
    have hstop : u.runState = .stopped := by
      by_contra hrun
      have hprog := step_not_stopped hu hrun
      omega
    refine ⟨u, hstop, fun m hm => ?_⟩
    obtain ⟨m, rfl⟩ := Nat.exists_eq_add_of_le' hm
    rw [runSteps_succ m s u hu, if_pos ((shouldStop_eq_true_iff u).2 hstop)]
  | succ k ih =>
    obtain ⟨u, hu⟩ := step_next s
    by_cases hstop : u.runState = .stopped
    · refine ⟨u, hstop, fun m hm => ?_⟩
      obtain ⟨m, rfl⟩ := Nat.exists_eq_add_of_le' (Nat.le_of_add_left_le hm)
      rw [runSteps_succ m s u hu, if_pos ((shouldStop_eq_true_iff u).2 hstop)]
    · have hpc := (step_not_stopped hu hstop).2
      obtain ⟨t, ht, hrun⟩ := ih u (by rw [step_prog hu]; omega)
      refine ⟨t, ht, fun m hm => ?_⟩
      obtain ⟨m, rfl⟩ := Nat.exists_eq_add_of_le' (Nat.le_of_add_left_le hm)
      rw [runSteps_succ m s u hu, if_neg (fun h => hstop ((shouldStop_eq_true_iff u).1 h)), hrun m (by omega)]

/-- Settles O50: the bound covers the program from any `pc`, and `run` allows at least as many steps. -/
theorem runStopsWithinTheBound : Obligations.RunStopsWithinTheBound := by
  intro s
  obtain ⟨t, ht, hrun⟩ := runSteps_stops ((s.prog.length + 1) / 3) s (by omega)
  exact ⟨t, hrun _ le_rfl, ht, hrun _ (by omega)⟩

theorem run_next (s : State) : ∃ t, run s = .next t ∧ t.runState = .stopped :=
  let ⟨t, _, ht, h⟩ := runStopsWithinTheBound s
  ⟨t, h, ht⟩

/-- Settles O49: after a step that does not stop, one step fewer than the bound is still enough, so the remaining steps
are the run from there. -/
theorem runRepeatsTheStepUntilItStops : Obligations.RunRepeatsTheStepUntilItStops := by
  intro s t h
  rw [run, runSteps_succ _ s t h]
  by_cases hstop : t.runState = .stopped
  · rw [if_pos ((shouldStop_eq_true_iff t).2 hstop), if_pos ((shouldStop_eq_true_iff t).2 hstop)]
  · have hne : ¬ shouldStop t = true := fun h => hstop ((shouldStop_eq_true_iff t).1 h)
    obtain ⟨hlen, hpc⟩ := step_not_stopped h hstop
    have hprog := step_prog h
    obtain ⟨u, -, hrun⟩ := runSteps_stops (s.prog.length - 1) t (by rw [hprog]; omega)
    rw [if_neg hne, if_neg hne, run, hprog, hrun _ (by omega), hrun _ (by omega)]

/-- Settles O51, from `step_next`, `run_next` and `run_of_stopped`. -/
theorem stepAndRunOperationsReturnTheStopFlag : Obligations.StepAndRunOperationsReturnTheStopFlag := by
  intro s
  have run_flag {t : State} (h : run s = .next t) (ht : t.runState = .stopped) :
      hostOp .run s = .next (t, .flag true) := by
    rw [hostOp, h, withFlag, (shouldStop_eq_true_iff t).2 ht]
  refine ⟨?step, ?run, fun hs => run_flag (run_of_stopped hs) hs⟩
  case step =>
    obtain ⟨t, ht⟩ := step_next s
    exact ⟨t, ht, by rw [hostOp, ht, withFlag, shouldStop]⟩
  case run =>
    obtain ⟨t, h, ht⟩ := run_next s
    exact ⟨t, h, run_flag h ht, ht⟩

end Sys2Proof.Machine
end

section
/-! The host operations: what each can do to the state, what it answers, and what every one of them keeps. -/

namespace Sys2Proof.Machine

/-! ### Everything a host operation can do to the state -/

/-- A host operation resets, installs a program, steps, runs, writes one register or leaves the state as it was. -/
theorem hostOp_cases {o : HostOp} {s t : State} {r : HostReply} (h : hostOp o s = .next (t, r)) :
    (o = .reset ∧ t = hostReset s) ∨
      (∃ b, b.length ≤ Config.lenMax ∧ t = restart 0 (Memory.ofBytes b) s) ∨
      step s = .next t ∨ run s = .next t ∨ (∃ (i : Nat) (hi : i < 32) (v : Value), t = setReg i hi v s) ∨ t = s := by
  cases o with
  | reset =>
    cases h
    exact .inl ⟨rfl, rfl⟩
  | setProg b =>
    have ht := Host.Outcome.next.inj h
    rcases hostSetProg_cases b s with ⟨-, he⟩ | ⟨-, hlen, he⟩ <;> rw [he] at ht <;> cases ht
    · exact .inr (.inr (.inr (.inr (.inr rfl))))
    · exact .inr (.inl ⟨b, hlen, rfl⟩)
  | step =>
    obtain ⟨u, hu⟩ := step_next s
    rw [hostOp, hu] at h
    cases h
    exact .inr (.inr (.inl hu))
  | run =>
    obtain ⟨u, hu, -⟩ := run_next s
    rw [hostOp, hu] at h
    cases h
    exact .inr (.inr (.inr (.inl hu)))
  | writeReg i kind payload =>
    have ht := Host.Outcome.next.inj h
    rcases hostWriteReg_cases i kind payload s with he | ⟨hi, v, -, he⟩ <;> rw [he] at ht <;> cases ht
    · exact .inr (.inr (.inr (.inr (.inr rfl))))
    · exact .inr (.inr (.inr (.inr (.inl ⟨i, hi, v, rfl⟩))))
  | readReg i =>
    have ht : (hostReadReg i s).1 = t := congrArg Prod.fst (Host.Outcome.next.inj h)
    exact .inr (.inr (.inr (.inr (.inr (by rw [← ht, hostReadReg_fst])))))
  | readPc | readStatus | readDiag =>
    cases h
    exact .inr (.inr (.inr (.inr (.inr rfl))))

/-! ### The invariant -/

/-- The canonical, reset or installed, engine that has not begun meets the invariant, whatever its registers. -/
theorem inv_restart (b : List Byte) (s : State) : (restart 0 (Memory.ofBytes b) s).Inv where
  progWf := Memory.wf_ofBytes b
  pcLe := Nat.zero_le _
  causeIff := iff_of_true rfl (by rw [restart_runState]; decide)
  addrZero _ := rfl
  addrLe := le_rfl
  readyPc _ := rfl

/-- RESET is a restart with the empty program, but for the registers and the notices. -/
theorem inv_hostReset (s : State) : (hostReset s).Inv := inv_restart [] (hostReset s)

/-- Settles O3: the reset state is one that RESET leaves as it is. -/
theorem resetStateMeetsInvariant : Obligations.ResetStateMeetsInvariant := inv_hostReset State.reset

/-- The invariant does not speak of registers. -/
theorem inv_setReg {i : Nat} (hi : i < 32) (v : Value) {s : State} (hs : s.Inv) : (setReg i hi v s).Inv :=
  { hs with }

theorem hostOp_inv {o : HostOp} {s t : State} {r : HostReply} (hs : s.Inv) (h : hostOp o s = .next (t, r)) : t.Inv := by
  rcases hostOp_cases h with ⟨-, rfl⟩ | ⟨b, -, rfl⟩ | ht | ht | ⟨i, hi, v, rfl⟩ | rfl
  · exact inv_hostReset s
  · exact inv_restart b s
  · exact step_inv hs ht
  · exact runSteps_induction (fun _ _ => step_inv) hs ht
  · exact inv_setReg hi v hs
  · exact hs

/-- Settles O5: `hostOp_inv` is this statement. -/
theorem hostOperationKeepsInvariant : Obligations.HostOperationKeepsInvariant := fun _ _ _ _ hs h => hostOp_inv hs h

/-- No host operation but an accepted SETPROG makes the program longer. -/
theorem hostOp_prog_length_le {o : HostOp} {s t : State} {r : HostReply} (hs : s.prog.length ≤ Config.lenMax)
    (h : hostOp o s = .next (t, r)) : t.prog.length ≤ Config.lenMax := by
  rcases hostOp_cases h with ⟨-, rfl⟩ | ⟨b, hb, rfl⟩ | ht | ht | ⟨i, hi, v, rfl⟩ | rfl
  · exact Nat.zero_le _
  · rwa [restart_prog, Memory.length_ofBytes]
  · rwa [step_prog ht]
  · exact runSteps_induction (P := fun u => u.prog.length ≤ Config.lenMax)
      (fun u w hu hw => by rwa [step_prog hw]) hs ht
  · exact hs
  · exact hs

/-- Settles O6: the invariant and the length bound hold at reset and are kept, and `LEN_MAX` is below `2^W_PC`. -/
theorem reachableStatesAreBounded : Obligations.ReachableStatesAreBounded := by
  intro s hs
  have hbound : s.Inv ∧ s.prog.length ≤ Config.lenMax := by
    induction hs with
    | reset => exact ⟨resetStateMeetsInvariant, Nat.zero_le _⟩
    | host s t o r _ h ih => exact ⟨hostOp_inv ih.1 h, hostOp_prog_length_le ih.2 h⟩
  obtain ⟨hinv, hlen⟩ := hbound
  have hmax : Config.lenMax ≤ 2 ^ Config.wPc - 1 := Nat.min_le_right ..
  have hpos : 0 < 2 ^ Config.wPc := Nat.two_pow_pos _
  have hpc := hinv.pcLe
  exact ⟨hinv, hlen, by omega⟩

/-! ### Notices -/

/-- A step appends at most one notice. -/
theorem step_diag_prefix {s t : State} (h : step s = .next t) : s.diag <+: t.diag := by
  rcases onlyHaltAndIllegalEmitNotices s t h with hd | ⟨-, -, hd⟩ | ⟨-, -, hd⟩ <;> rw [hd]
  · exact List.prefix_append ..
  · exact List.prefix_append ..

/-- Settles O58: only steps and runs touch DIAG, RESET aside. -/
theorem diagnosticsAreAppendOnly : Obligations.DiagnosticsAreAppendOnly := by
  intro o s t r h ho
  rcases hostOp_cases h with ⟨hreset, -⟩ | ⟨b, -, rfl⟩ | ht | ht | ⟨i, hi, v, rfl⟩ | rfl
  · exact absurd hreset ho
  · exact List.prefix_rfl
  · exact step_diag_prefix ht
  · exact runSteps_induction (P := fun u => s.diag <+: u.diag) (fun u w hu hw => hu.trans (step_diag_prefix hw))
      List.prefix_rfl ht
  · exact List.prefix_rfl
  · exact List.prefix_rfl

/-! ### RESET and SETPROG -/

/-- Settles O2: RESET puts every field but the draw counter at its reset value. -/
theorem hostResetRestoresEveryResetValue : Obligations.HostResetRestoresEveryResetValue := by
  intro s
  refine ⟨hostReset s, rfl, fun i hi => ?_, rfl, rfl, rfl, rfl, rfl, rfl⟩
  exact (readReg_congr i _ _ rfl).trans (readReg_reset i hi)

/-- Settles O53, from the two ways SETPROG ends. -/
theorem setProgInstallsOrRefuses : Obligations.SetProgInstallsOrRefuses := by
  intro b s
  have refuse (h : s.runState = .running ∨ Config.lenMax < b.length) : hostOp (.setProg b) s = .next (s, .error) :=
    congrArg Host.Outcome.next (if_pos h)
  refine ⟨fun hrun hlen => ?_, fun h => refuse (.inl h), fun h => refuse (.inr h)⟩
  exact congrArg Host.Outcome.next (if_neg (not_or.2 ⟨hrun, Nat.not_lt.2 hlen⟩))

/-- Settles O54: the bytes from offset 0 of the installed program are the program. -/
theorem installedProgramStartsAtOffsetZero : Obligations.InstalledProgramStartsAtOffsetZero := by
  intro b s i hlen hd
  refine step_of_decode (by rw [restart_runState]; decide) (Memory.wf_ofBytes b) ?_ ?_
  · rwa [restart_pc, restart_prog, Memory.length_ofBytes, Nat.zero_add]
  · rwa [restart_pc, restart_prog, Memory.bytes_ofBytes, List.drop_zero]

/-! ### The host's view of a register -/

theorem hostReadReg_of_lt {i : Nat} (h : i < 32) (s : State) :
    hostReadReg i s = (s, .reg s.regs[i].toHost.1 s.regs[i].toHost.2) := by
  simp only [hostReadReg, readReg_of_lt i h]

theorem hostReadReg_of_ge {i : Nat} (h : 32 ≤ i) (s : State) : hostReadReg i s = (s, .error) := by
  simp only [hostReadReg, readReg_of_ge i h]

/-- The pair of a value writes that value back. -/
@[simp] theorem ofHost_toHost (v : Value) : Value.ofHost v.toHost.1 v.toHost.2 = some v := by
  cases v <;> simp [Value.ofHost, Value.toHost]

/-- A KIND code that names a kind makes a value of that code, its payload cut to the kind's width. -/
theorem ofHost_of_hostKindBits {kind : BitVec 4} {n : Nat} (h : hostKindBits kind = some n) (payload : BitVec 64) :
    ∃ v, Value.ofHost kind payload = some v ∧ v.toHost = (kind, (payload.setWidth n).setWidth 64) := by
  have hk : kind = BitVec.ofNat 4 kind.toNat := by rw [BitVec.ofNat_toNat, BitVec.setWidth_eq]
  have hlt : kind.toNat < 16 := kind.isLt
  unfold hostKindBits at h
  unfold Value.ofHost
  generalize kind.toNat = c at *
  subst hk
  interval_cases c <;> cases h <;> exact ⟨_, rfl, by simp [Value.toHost, BitVec.eq_nil (payload.setWidth 0)]⟩

/-- The codes 10 to 14 are the ones that name no kind. -/
theorem ofHost_eq_none_iff (kind : BitVec 4) (payload : BitVec 64) :
    Value.ofHost kind payload = none ↔ 10 ≤ kind.toNat ∧ kind.toNat ≤ 14 := by
  have hlt : kind.toNat < 16 := kind.isLt
  unfold Value.ofHost
  generalize kind.toNat = c at *
  interval_cases c <;> simp

theorem hostWriteReg_of_some {i : Nat} {kind : BitVec 4} {payload : BitVec 64} {v : Value} (hi : i < 32)
    (hv : Value.ofHost kind payload = some v) (s : State) :
    hostWriteReg i kind payload s = (setReg i hi v s, .done) := by
  simp only [hostWriteReg, hv, writeReg_of_lt i hi]

/-- Settles O55, from the round trip of a pair and the read after a register write. -/
theorem hostRegisterWritesReadBack : Obligations.HostRegisterWritesReadBack := by
  refine ⟨fun b h w d => ⟨rfl, rfl, rfl, rfl, rfl, rfl, rfl, rfl, rfl, rfl, rfl⟩, fun v => ⟨ofHost_toHost v, ?kind⟩,
    fun i kind payload n s hi hkind => ?write⟩
  case kind => cases v <;> exact Option.some_ne_none _
  case write =>
    obtain ⟨v, hv, hview⟩ := ofHost_of_hostKindBits hkind payload
    refine ⟨setReg i hi v s, congrArg Host.Outcome.next (hostWriteReg_of_some hi hv s), ?_,
      fun j hj => readReg_setReg_other i j hi hj v s, rfl⟩
    rw [hostOp, hostReadReg_of_lt hi, setReg_regs, Vector.getElem_set_self, hview]

/-- Settles O56: each read operation is one equation, READREG two. -/
theorem readOperationsReturnTheState : Obligations.ReadOperationsReturnTheState :=
  fun s => ⟨rfl, fun _ h => congrArg Host.Outcome.next (hostReadReg_of_lt h s),
    fun _ h => congrArg Host.Outcome.next (hostReadReg_of_ge h s), rfl, rfl⟩

/-! ### Refusals -/

/-- WRITEREG is refused for a register or a KIND that does not exist. -/
theorem hostWriteReg_refused {i : Nat} {kind : BitVec 4} (h : 32 ≤ i ∨ 10 ≤ kind.toNat ∧ kind.toNat ≤ 14)
    (payload : BitVec 64) (s : State) : hostWriteReg i kind payload s = (s, .error) := by
  rcases hostWriteReg_cases i kind payload s with he | ⟨hi, v, hv, -⟩
  · exact he
  · have hnone := (ofHost_eq_none_iff kind payload).2 (h.resolve_left (Nat.not_le.2 hi))
    rw [hv] at hnone
    cases hnone

/-- Settles O57, operation by operation. -/
theorem refusedOperationsChangeNothing : Obligations.RefusedOperationsChangeNothing := by
  intro o s
  have accept {t : State} {r : HostReply} (h : hostOp o s = .next (t, r)) (hr : r ≠ .error) (ho : ¬ o.refusedIn s) :
      ∃ t r, hostOp o s = .next (t, r) ∧ (r = .error ↔ o.refusedIn s) ∧ (r = .error → t = s) :=
    ⟨t, r, h, iff_of_false hr ho, fun he => absurd he hr⟩
  have refuse (h : hostOp o s = .next (s, .error)) (ho : o.refusedIn s) :
      ∃ t r, hostOp o s = .next (t, r) ∧ (r = .error ↔ o.refusedIn s) ∧ (r = .error → t = s) :=
    ⟨s, .error, h, iff_of_true rfl ho, fun _ => rfl⟩
  cases o with
  | reset => exact accept rfl nofun nofun
  | readPc => exact accept rfl nofun nofun
  | readStatus => exact accept rfl nofun nofun
  | readDiag => exact accept rfl nofun nofun
  | step =>
    obtain ⟨⟨t, -, h⟩, -⟩ := stepAndRunOperationsReturnTheStopFlag s
    exact accept h nofun nofun
  | run =>
    obtain ⟨-, ⟨t, -, h, -⟩, -⟩ := stepAndRunOperationsReturnTheStopFlag s
    exact accept h nofun nofun
  | setProg b =>
    rcases hostSetProg_cases b s with ⟨h, he⟩ | ⟨hrun, hlen, he⟩
    · exact refuse (congrArg Host.Outcome.next he) h
    · exact accept (congrArg Host.Outcome.next he) nofun (not_or.2 ⟨hrun, Nat.not_lt.2 hlen⟩)
  | readReg i =>
    rcases Nat.lt_or_ge i 32 with h | h
    · exact accept (congrArg Host.Outcome.next (hostReadReg_of_lt h s)) nofun (Nat.not_le.2 h)
    · exact refuse (congrArg Host.Outcome.next (hostReadReg_of_ge h s)) h
  | writeReg i kind payload =>
    by_cases h : 32 ≤ i ∨ 10 ≤ kind.toNat ∧ kind.toNat ≤ 14
    · exact refuse (congrArg Host.Outcome.next (hostWriteReg_refused h payload s)) h
    · obtain ⟨hi, hkind⟩ := not_or.1 h
      obtain ⟨v, hv⟩ := Option.ne_none_iff_exists'.1 (mt (ofHost_eq_none_iff kind payload).1 hkind)
      exact accept (congrArg Host.Outcome.next (hostWriteReg_of_some (Nat.not_le.1 hi) hv s)) nofun h

/-! ### Status codes -/

/-- The cause a code of 60_exceptions.md R221 stands for; the codes that are never held are read as NONE. -/
def stopCauseOfCode (code : BitVec 4) : StopCause :=
  match code.toNat with
  | 1 => .endOfProgram
  | 2 => .halted
  | 3 => .illegalOpcode
  | 4 => .mulDivTypeMismatch
  | 8 => .addSubTypeMismatch
  | 9 => .indexOutOfRange
  | 10 => .divideByZero
  | 11 => .overflow
  | 12 => .decodeOutOfBounds
  | 13 => .emptyProgram
  | _ => .none

theorem stopCauseOfCode_code (c : StopCause) : stopCauseOfCode c.code = c := by cases c <;> rfl

/-- Settles O59: the codes are read off the table, they are distinct because each gives its cause back, and the fatal
ones are those from 8 on. -/
theorem statusCodesTellTheCause : Obligations.StatusCodesTellTheCause := by
  refine ⟨fun s => rfl, ⟨rfl, rfl, rfl⟩, ⟨rfl, rfl, rfl, rfl, rfl, rfl, rfl, rfl, rfl, rfl, rfl⟩, ?distinct, ?fatal⟩
  case distinct =>
    intro c d h
    rw [← stopCauseOfCode_code c, h, stopCauseOfCode_code]
  case fatal =>
    intro c
    cases c <;> rfl

end Sys2Proof.Machine
end

section
/-! Three-register operations: the checks in their order, and the integer kinds. -/

namespace Sys2Proof.Machine

/-! ### What decides the outcome of a three-register operation -/

section

variable {op : ArithOp} {ra rb : Byte} {s : State} {va vb : Value}

theorem exec_instr_of_mismatch (ha : readReg ra.toNat s = some va) (hb : readReg rb.toNat s = some vb)
    (h : arith op s.nanDraws va vb = .mismatch) (rd : Byte) :
    exec (op.instr ra rb rd) s = .next (s.ended 4 op.mismatchCause) := by
  rw [exec_instr, runR3_of_sources op _ ra rb rd s va vb ha hb, h]
  rfl

theorem exec_instr_of_fault {c : StopCause} (ha : readReg ra.toNat s = some va) (hb : readReg rb.toNat s = some vb)
    (h : arith op s.nanDraws va vb = .fault c) (rd : Byte) : exec (op.instr ra rb rd) s = .next (s.ended 4 c) := by
  rw [exec_instr, runR3_of_sources op _ ra rb rd s va vb ha hb, h]
  rfl

theorem exec_instr_of_value {v : Value} {d : Nat} (ha : readReg ra.toNat s = some va)
    (hb : readReg rb.toNat s = some vb) (h : arith op s.nanDraws va vb = .value v d) (rd : Byte) :
    exec (op.instr ra rb rd) s = .next (writeResult rd v d s.pc (advance 4 s)) := by
  rw [exec_instr, runR3_of_sources op _ ra rb rd s va vb ha hb, h]

theorem exec_instr_of_value_of_lt {v : Value} {d : Nat} {rd : Byte} (ha : readReg ra.toNat s = some va)
    (hb : readReg rb.toNat s = some vb) (h : arith op s.nanDraws va vb = .value v d) (hrd : rd.toNat < 32) :
    exec (op.instr ra rb rd) s = .next { s.completed 4 rd.toNat hrd v with nanDraws := s.nanDraws + d } := by
  rw [exec_instr_of_value ha hb h, writeResult_of_lt rd hrd]
  rfl

theorem exec_instr_of_value_of_ge {v : Value} {d : Nat} {rd : Byte} (ha : readReg ra.toNat s = some va)
    (hb : readReg rb.toNat s = some vb) (h : arith op s.nanDraws va vb = .value v d) (hrd : 32 ≤ rd.toNat) :
    exec (op.instr ra rb rd) s = .next (s.ended 4 .indexOutOfRange) := by
  rw [exec_instr_of_value ha hb h, writeResult_of_ge rd hrd]
  rfl

/-- An operation that leaves the engine Running read two sources and computed a value from them. -/
theorem exec_instr_running {rd : Byte} {t : State} (h : exec (op.instr ra rb rd) s = .next t)
    (hrun : t.runState = .running) :
    ∃ va vb v d, readReg ra.toNat s = some va ∧ readReg rb.toNat s = some vb ∧
      arith op s.nanDraws va vb = .value v d ∧
      ∃ hrd : rd.toNat < 32, t = { s.completed 4 rd.toNat hrd v with nanDraws := s.nanDraws + d } := by
  rw [exec_instr] at h
  rcases runR3_cases op (endStep op.mismatchCause) ra rb rd s with
    ⟨-, he⟩ | ⟨va, vb, ha, hb, ⟨-, he⟩ | ⟨c, -, he⟩ | ⟨v, d, hv, he⟩⟩ <;> rw [he] at h
  · cases h; cases hrun
  · cases h; cases hrun
  · cases h; cases hrun
  · rcases writeResult_cases rd v d s.pc (advance 4 s) with ⟨hrd, hw⟩ | ⟨-, hw⟩ <;> rw [hw] at h
    · cases h
      exact ⟨va, vb, v, d, ha, hb, hv, hrd, rfl⟩
    · cases h; cases hrun

end

/-! ### Operand checks -/

/-- Settles O39: of the outcomes of the operation the others need both sources. -/
theorem sourceIndexOutOfRangeFaults : Obligations.SourceIndexOutOfRangeFaults := by
  intro op ra rb rd s hbad
  rw [exec_instr]
  rcases runR3_cases op (endStep op.mismatchCause) ra rb rd s with ⟨-, he⟩ | ⟨va, vb, ha, hb, -⟩
  · rw [he]
    rfl
  · rcases hbad with h | h
    · rw [readReg_of_ge _ h] at ha; cases ha
    · rw [readReg_of_ge _ h] at hb; cases hb

/-- Settles O38: the dispatch finds a mismatch exactly there. -/
theorem kindMismatchEndsTheStep : Obligations.KindMismatchEndsTheStep := by
  intro op ra rb rd s va vb ha hb hkind
  have hsame : sameKind va vb = false := by
    rcases hkind with h | h <;> simp [sameKind, h]
  refine ⟨exec_instr_of_mismatch ha hb ((arith_eq_mismatch_iff _ _ _ _).2 hsame) rd, ?_⟩
  cases op <;> simp [ArithOp.mismatchCause, StopCause.isFatal]

/-- Settles O40: what the operation computes does not depend on the destination. -/
theorem destinationIndexOutOfRangeFaults : Obligations.DestinationIndexOutOfRangeFaults := by
  intro op ra rb rd good s t h hrun hrd
  obtain ⟨va, vb, v, d, ha, hb, hv, -⟩ := exec_instr_running h hrun
  exact exec_instr_of_value_of_ge ha hb hv hrd

/-! ### The kind of a result -/

/-- What a kind makes of an integer has that kind, whatever the integer. -/
theorem kind_mk (k : IntKind) (r r' : Int) : (k.mk r).kind = (k.mk r').kind := by cases k <;> rfl

/-- An integer value is what its kind makes of its payload. -/
theorem mk_of_asInt {v : Value} {k : IntKind} {a : Int} (h : v.asInt = some (k, a)) : k.mk a = v := by
  cases v <;> cases h <;> simp [IntKind.mk]

theorem intResult_kind {op : ArithOp} {k : IntKind} {a b : Int} {v : Value} {d : Nat}
    (h : intResult op k a b = .value v d) : v.kind = (k.mk a).kind := by
  unfold intResult at h
  split at h
  · cases h
  · split at h <;> cases h
    exact kind_mk ..

theorem floatResult32_kind {op : ArithOp} {k : Nat} {x y : BitVec 32} {v : Value} {d : Nat}
    (h : floatResult32 op k x y = .value v d) : v.kind = .f32 := by
  unfold floatResult32 at h
  split at h <;> cases h <;> rfl

theorem floatResult64_kind {op : ArithOp} {k : Nat} {x y : BitVec 64} {v : Value} {d : Nat}
    (h : floatResult64 op k x y = .value v d) : v.kind = .f64 := by
  unfold floatResult64 at h
  split at h <;> cases h <;> rfl

/-- An operation that gives a value had two operands of one kind other than None, and gives a value of that kind. -/
theorem arith_kind {op : ArithOp} {k : Nat} {va vb v : Value} {d : Nat} (h : arith op k va vb = .value v d) :
    va.kind = vb.kind ∧ va.kind ≠ .none ∧ v.kind = va.kind := by
  have hsame : sameKind va vb = true := by
    rw [← Bool.not_eq_false, ← arith_eq_mismatch_iff op k, h]
    exact nofun
  obtain ⟨hkind, hne⟩ : va.kind = vb.kind ∧ va.kind ≠ .none := by simpa [sameKind] using hsame
  refine ⟨hkind, hne, ?_⟩
  cases va with
  | none => exact absurd rfl hne
  | f32 x =>
    cases vb <;> cases hkind
    exact floatResult32_kind h
  | f64 x =>
    cases vb <;> cases hkind
    exact floatResult64_kind h
  | _ =>
    cases vb <;> cases hkind
    exact intResult_kind h

/-- Settles O41: the value written has the kind `arith_kind` says, and the write is to the destination alone. -/
theorem arithmeticKeepsTheSourcesKind : Obligations.ArithmeticKeepsTheSourcesKind := by
  intro op ra rb rd s t va vb ha hb h hrun
  obtain ⟨va', vb', v, d, ha', hb', hv, hrd, rfl⟩ := exec_instr_running h hrun
  obtain rfl := Option.some.inj (ha'.symm.trans ha)
  obtain rfl := Option.some.inj (hb'.symm.trans hb)
  obtain ⟨hkind, hne, hvk⟩ := arith_kind hv
  exact ⟨hkind, hne, ⟨v, readReg_setReg_same rd.toNat hrd v s, hvk⟩,
    fun i hi => readReg_setReg_other rd.toNat i hrd hi v s⟩

/-! ### Integer kinds -/

@[simp] theorem inRange_iff (k : IntKind) (r : Int) : k.inRange r = true ↔ k.lo ≤ r ∧ r ≤ k.hi := decide_eq_true_iff

/-- The range of an unsigned kind starts at 0. -/
theorem lo_of_unsigned {k : IntKind} (h : k.signed = false) : k.lo = 0 := by
  rw [IntKind.lo, h]
  rfl

/-- The range of a signed kind goes one further down than up. -/
theorem lo_of_signed {k : IntKind} (h : k.signed = true) : k.lo = -(k.hi + 1) := by
  simp [IntKind.lo, IntKind.hi, h]

theorem hi_nonneg (k : IntKind) : 0 ≤ k.hi := by cases k <;> decide

/-- An unsigned word holds an integer from 0 up to its greatest. -/
theorem toNat_range {w : Nat} (n : BitVec w) : 0 ≤ (n.toNat : Int) ∧ (n.toNat : Int) ≤ (2 ^ w : Nat) - 1 := by
  have := n.isLt
  omega

/-- A signed word holds an integer of its two's complement range. -/
theorem toInt_range {w : Nat} (n : BitVec w) :
    -(2 ^ (w - 1) : Nat) ≤ n.toInt ∧ n.toInt ≤ (2 ^ (w - 1) : Nat) - 1 := by
  have hlo := n.le_toInt
  have hhi := n.toInt_lt
  push_cast
  omega

/-- The payload of an integer value lies in its kind's range. -/
theorem range_of_asInt {v : Value} {k : IntKind} {a : Int} (h : v.asInt = some (k, a)) : k.lo ≤ a ∧ a ≤ k.hi := by
  cases v <;> cases h
  case u8 n => exact toNat_range n
  case u16 n => exact toNat_range n
  case u32 n => exact toNat_range n
  case u64 n => exact toNat_range n
  case i8 n => exact toInt_range n
  case i16 n => exact toInt_range n
  case i32 n => exact toInt_range n
  case i64 n => exact toInt_range n

theorem toNat_ofInt_of_range {w : Nat} {r : Int} (hlo : 0 ≤ r) (hhi : r ≤ (2 ^ w : Nat) - 1) :
    ((BitVec.ofInt w r).toNat : Int) = r := by
  rw [BitVec.toNat_ofInt, Int.emod_eq_of_lt hlo (by omega), Int.toNat_of_nonneg hlo]

theorem toInt_ofInt_of_range {w : Nat} (hw : 0 < w) {r : Int} (hlo : -(2 ^ (w - 1) : Nat) ≤ r)
    (hhi : r ≤ (2 ^ (w - 1) : Nat) - 1) : (BitVec.ofInt w r).toInt = r := by
  push_cast at hlo hhi
  exact BitVec.toInt_ofInt_eq_self hw hlo (by omega)

/-- Every integer of a kind's range is the payload of the value the kind makes of it. -/
theorem asInt_mk {k : IntKind} {r : Int} (hlo : k.lo ≤ r) (hhi : r ≤ k.hi) : (k.mk r).asInt = some (k, r) := by
  cases k
  case u8 => exact congrArg (fun x => some (IntKind.u8, x)) (toNat_ofInt_of_range hlo hhi)
  case u16 => exact congrArg (fun x => some (IntKind.u16, x)) (toNat_ofInt_of_range hlo hhi)
  case u32 => exact congrArg (fun x => some (IntKind.u32, x)) (toNat_ofInt_of_range hlo hhi)
  case u64 => exact congrArg (fun x => some (IntKind.u64, x)) (toNat_ofInt_of_range hlo hhi)
  case i8 => exact congrArg (fun x => some (IntKind.i8, x)) (toInt_ofInt_of_range (by decide) hlo hhi)
  case i16 => exact congrArg (fun x => some (IntKind.i16, x)) (toInt_ofInt_of_range (by decide) hlo hhi)
  case i32 => exact congrArg (fun x => some (IntKind.i32, x)) (toInt_ofInt_of_range (by decide) hlo hhi)
  case i64 => exact congrArg (fun x => some (IntKind.i64, x)) (toInt_ofInt_of_range (by decide) hlo hhi)

/-- Settles O32: an unsigned kind holds `toNat` and a signed kind `toInt` of a word of its width. -/
theorem integerKindsHoldTheirRange : Obligations.IntegerKindsHoldTheirRange := by
  refine ⟨fun v k a h => ?_, fun k r hlo hhi => asInt_mk hlo hhi⟩
  obtain ⟨hlo, hhi⟩ := range_of_asInt h
  exact ⟨hlo, hhi, mk_of_asInt h⟩

/-! ### Quotients -/

/-- The model's quotient is the one rounded toward zero. -/
theorem tdiv_eq (a b : Int) : tdiv a b = Int.tdiv a b := by
  rw [← Int.sign_mul_natAbs (Int.tdiv a b), Int.natAbs_tdiv, Int.sign_tdiv, tdiv, Int.sign_mul]
  split
  · rename_i h
    rw [Nat.div_eq_of_lt h]
    simp
  · rfl

/-- A quotient of integers of a range lies in it, but for the least signed integer by -1. -/
theorem tdiv_range {k : IntKind} {a b : Int} (ha : k.lo ≤ a ∧ a ≤ k.hi) (hb : k.lo ≤ b) (hb0 : b ≠ 0)
    (hmin : ¬(k.signed = true ∧ a = k.lo ∧ b = -1)) : k.lo ≤ Int.tdiv a b ∧ Int.tdiv a b ≤ k.hi := by
  have habs : (Int.tdiv a b).natAbs ≤ a.natAbs := Int.natAbs_tdiv_le_natAbs a b
  obtain ⟨hlo, hhi⟩ := ha
  rcases hsig : k.signed with _ | _
  · rw [lo_of_unsigned hsig] at *
    have hq := Int.tdiv_nonneg hlo hb
    omega
  · rw [lo_of_signed hsig] at *
    have hpos := hi_nonneg k
    refine ⟨by omega, ?_⟩
    by_contra hover
    have hamin : a = -(k.hi + 1) := by omega
    have hb1 : b.natAbs < 2 := by
      by_contra hb2
      have hhalf : a.natAbs.div b.natAbs ≤ a.natAbs / 2 := Nat.div_le_div_left (by omega) (by omega)
      rw [← Int.natAbs_tdiv] at hhalf
      omega
    have hb1' : b = 1 := by
      have hbne : b ≠ -1 := fun h => hmin ⟨hsig, hamin, h⟩
      omega
    rw [hb1', Int.tdiv_one] at hover
    omega

/-! ### Integer operations -/

theorem intResult_of_inRange {op : ArithOp} {k : IntKind} {a b : Int} (hz : ¬(op = .div ∧ b = 0))
    (h : k.lo ≤ exactInt op a b ∧ exactInt op a b ≤ k.hi) : intResult op k a b = .value (k.mk (exactInt op a b)) 0 := by
  rw [intResult, if_neg hz, if_pos ((inRange_iff ..).2 h)]

theorem intResult_of_not_inRange {op : ArithOp} {k : IntKind} {a b : Int} (hz : ¬(op = .div ∧ b = 0))
    (h : exactInt op a b < k.lo ∨ k.hi < exactInt op a b) : intResult op k a b = .fault .overflow := by
  have hr : ¬ k.inRange (exactInt op a b) = true := by
    rw [inRange_iff]
    omega
  rw [intResult, if_neg hz, if_neg hr]

theorem intResult_div_zero (k : IntKind) (a : Int) : intResult .div k a 0 = .fault .divideByZero := if_pos ⟨rfl, rfl⟩

section

variable {op : ArithOp} {ra rb rd : Byte} {s : State} {va vb : Value} {k : IntKind} {a b : Int}

/-- An integer operation whose exact result is in range completes and writes it. -/
theorem exec_instr_of_inRange (h : rd.toNat < 32) (hva : readReg ra.toNat s = some va)
    (hvb : readReg rb.toNat s = some vb) (ha : va.asInt = some (k, a)) (hb : vb.asInt = some (k, b)) (hz : ¬(op = .div ∧ b = 0))
    (hr : k.lo ≤ exactInt op a b ∧ exactInt op a b ≤ k.hi) :
    exec (op.instr ra rb rd) s = .next (s.completed 4 rd.toNat h (k.mk (exactInt op a b))) :=
  exec_instr_of_value_of_lt hva hvb ((arith_of_asInt op _ va vb k a b ha hb).trans (intResult_of_inRange hz hr)) h

end

/-- Settles O33: `exec_instr_of_inRange` for the sum and for the difference. -/
theorem addAndSubWriteTheExactIntegerResult : Obligations.AddAndSubWriteTheExactIntegerResult :=
  fun _ _ _ _ _ _ _ _ _ h hva hvb ha hb =>
    ⟨fun hlo hhi => exec_instr_of_inRange (op := .add) h hva hvb ha hb nofun ⟨hlo, hhi⟩,
      fun hlo hhi => exec_instr_of_inRange (op := .sub) h hva hvb ha hb nofun ⟨hlo, hhi⟩⟩

/-- Settles O34: `exec_instr_of_inRange` for the product. -/
theorem mulWritesTheExactIntegerProduct : Obligations.MulWritesTheExactIntegerProduct :=
  fun _ _ _ _ _ _ _ _ _ h hva hvb ha hb hlo hhi =>
    exec_instr_of_inRange (op := .mul) h hva hvb ha hb nofun ⟨hlo, hhi⟩

/-- Settles O35: the quotient is in range by `tdiv_range`. -/
theorem divWritesTheQuotientTowardZero : Obligations.DivWritesTheQuotientTowardZero := by
  intro ra rb rd s va vb k a b h hva hvb ha hb hb0 hmin
  have hr := tdiv_range (range_of_asInt ha) (range_of_asInt hb).1 hb0 hmin
  rw [← tdiv_eq] at hr ⊢
  exact exec_instr_of_inRange (op := .div) h hva hvb ha hb (fun hz => hb0 hz.2) hr

/-- Settles O36: the range check fails, and it comes before the destination is looked at. -/
theorem integerResultOutOfRangeFaults : Obligations.IntegerResultOutOfRangeFaults := by
  intro op ra rb rd s va vb k a b r hva hvb ha hb hop hr
  obtain ⟨hz, rfl⟩ : ¬(op = .div ∧ b = 0) ∧ r = exactInt op a b := by
    rcases hop with ⟨rfl, rfl⟩ | ⟨rfl, rfl⟩ | ⟨rfl, rfl⟩ | ⟨rfl, hb0, rfl⟩
    · exact ⟨nofun, rfl⟩
    · exact ⟨nofun, rfl⟩
    · exact ⟨nofun, rfl⟩
    · exact ⟨fun hz => hb0 hz.2, (tdiv_eq a b).symm⟩
  exact exec_instr_of_fault hva hvb ((arith_of_asInt op _ va vb k a b ha hb).trans (intResult_of_not_inRange hz hr)) rd

/-- Settles O37: the zero divisor is found before the range and the destination are looked at. -/
theorem integerDivisionByZeroFaults : Obligations.IntegerDivisionByZeroFaults := by
  intro ra rb rd s va vb k a hva hvb ha hb
  exact exec_instr_of_fault (op := .div) hva hvb
    ((arith_of_asInt .div _ va vb k a 0 ha hb).trans (intResult_div_zero k a)) rd

end Sys2Proof.Machine
end

section
/-! The float operations on data: when they give NaN, and which sign they give. -/

namespace Sys2Proof.Machine

/-! ### NaN results -/

/-- An operation on data gives NaN exactly for a NaN operand or an invalid operation (43_arith.md R180, R182). -/
theorem FloatFormat.op_eq_none_iff (f : FloatFormat) (op : ArithOp) (X Y : Datum) : f.op op X Y = none ↔
    X = .nan ∨ Y = .nan ∨
      (∃ a b, X = .inf a ∧ Y = .inf b ∧ (op = .div ∨ (op = .add ∧ a ≠ b) ∨ (op = .sub ∧ a = b))) ∨
      ((∃ a e, X = .finite a 0 e) ∧ (∃ b g, Y = .finite b 0 g) ∧ op = .div) ∨
      (op = .mul ∧ (((∃ a e, X = .finite a 0 e) ∧ ∃ b, Y = .inf b) ∨ ((∃ a, X = .inf a) ∧ ∃ b g, Y = .finite b 0 g))) := by
  cases op with
  | add =>
    cases X <;> cases Y <;> simp [FloatFormat.op, FloatFormat.add]
  | sub =>
    cases X <;> cases Y <;> simp [FloatFormat.op, FloatFormat.sub, FloatFormat.add, Datum.negate]
  | mul =>
    cases X <;> cases Y <;> simp [FloatFormat.op, FloatFormat.mul]
  | div =>
    cases X <;> cases Y <;> simp [FloatFormat.op, FloatFormat.div]
    case finite.finite a m e b n g =>
      by_cases hn : n = 0 <;> simp [hn]

/-! ### Signs -/

/-- The number `n` is a bit pattern of sign `neg` and no NaN: a magnitude up to infinity's under that sign. -/
def FloatFormat.HasSign (f : FloatFormat) (n : Nat) (neg : Bool) : Prop :=
  ∃ mag, mag ≤ f.topExp * f.expUnit ∧ n = f.withSign neg mag

theorem FloatFormat.hasSign_infinity (f : FloatFormat) (neg : Bool) : f.HasSign (f.infinity neg) neg :=
  ⟨_, le_rfl, rfl⟩

theorem FloatFormat.hasSign_zero (f : FloatFormat) (neg : Bool) : f.HasSign (f.withSign neg 0) neg :=
  ⟨0, Nat.zero_le _, rfl⟩

theorem FloatFormat.hasSign_round (f : FloatFormat) (neg : Bool) (num den : Nat) (exp : Int) :
    f.HasSign (f.round neg num den exp) neg := by
  unfold FloatFormat.round
  split
  · exact f.hasSign_zero neg
  · dsimp only
    split
    · exact f.hasSign_infinity neg
    · exact ⟨_, by omega, rfl⟩

/-- The sign of a datum, `false` for NaN. -/
def Datum.neg : Datum → Bool
  | .nan => false
  | .inf a => a
  | .finite a _ _ => a

theorem Datum.neg_negate {X : Datum} (h : X ≠ .nan) : X.negate.neg = !X.neg := by
  cases X with
  | nan => exact absurd rfl h
  | inf a => rfl
  | finite a m e => rfl

/-- A product carries the exclusive or of the signs. -/
theorem FloatFormat.mul_hasSign {f : FloatFormat} {X Y : Datum} {n : Nat} (h : f.mul X Y = some n) :
    f.HasSign n (X.neg ^^ Y.neg) := by
  cases X <;> cases Y <;> simp only [FloatFormat.mul, reduceCtorEq, Option.ite_none_left_eq_some, Option.some.injEq] at h
  case inf.inf => exact h ▸ f.hasSign_infinity _
  case inf.finite => exact h.2 ▸ f.hasSign_infinity _
  case finite.inf => exact h.2 ▸ f.hasSign_infinity _
  case finite.finite => exact h ▸ f.hasSign_round ..

/-- A quotient carries the exclusive or of the signs. -/
theorem FloatFormat.div_hasSign {f : FloatFormat} {X Y : Datum} {n : Nat} (h : f.div X Y = some n) :
    f.HasSign n (X.neg ^^ Y.neg) := by
  cases X <;> cases Y <;> simp only [FloatFormat.div, reduceCtorEq, Option.some.injEq] at h
  case inf.finite => exact h ▸ f.hasSign_infinity _
  case finite.inf => exact h ▸ f.hasSign_zero _
  case finite.finite a m e b k g =>
    split at h
    · rw [Option.ite_none_left_eq_some, Option.some.injEq] at h
      exact h.2 ▸ f.hasSign_infinity _
    · exact Option.some.inj h ▸ f.hasSign_round ..

/-- A sum with an infinity carries its sign. -/
theorem FloatFormat.add_hasSign_of_inf_left {f : FloatFormat} {a : Bool} {Y : Datum} {n : Nat}
    (h : f.add (.inf a) Y = some n) : f.HasSign n a := by
  cases Y <;> simp only [FloatFormat.add, reduceCtorEq, Option.ite_none_right_eq_some, Option.some.injEq] at h
  case inf => exact h.2 ▸ f.hasSign_infinity _
  case finite => exact h ▸ f.hasSign_infinity _

theorem FloatFormat.add_hasSign_of_inf_right {f : FloatFormat} {b : Bool} {X : Datum} {n : Nat}
    (h : f.add X (.inf b) = some n) : f.HasSign n b := by
  cases X <;> simp only [FloatFormat.add, reduceCtorEq, Option.ite_none_right_eq_some, Option.some.injEq] at h
  case inf => exact h.1 ▸ h.2 ▸ f.hasSign_infinity _
  case finite => exact h ▸ f.hasSign_infinity _

/-- Every operation that is not NaN gives a pattern that is no NaN encoding. -/
theorem FloatFormat.op_hasSign {f : FloatFormat} {op : ArithOp} {X Y : Datum} {n : Nat} (h : f.op op X Y = some n) :
    ∃ neg, f.HasSign n neg := by
  rcases f.op_cases op X Y n h with ⟨neg, rfl⟩ | ⟨neg, rfl⟩ | ⟨neg, num, den, exp, rfl⟩
  · exact ⟨neg, f.hasSign_infinity neg⟩
  · exact ⟨neg, f.hasSign_zero neg⟩
  · exact ⟨neg, f.hasSign_round neg num den exp⟩

/-! ### Exact values -/

/-- The rational number of a sign, an integer and an exponent of two. -/
def signedRat (neg : Bool) (m : ℚ) (e : Int) : ℚ := (if neg then -1 else 1) * m * 2 ^ e

@[simp] theorem Datum.toRat_finite (neg : Bool) (m : Nat) (e : Int) :
    (Datum.finite neg m e).toRat = some (signedRat neg m e) := rfl

theorem Datum.toRat_eq_some {d : Datum} {X : ℚ} (h : d.toRat = some X) :
    ∃ neg m e, d = .finite neg m e ∧ X = signedRat neg m e := by
  cases d <;> cases h
  exact ⟨_, _, _, rfl, rfl⟩

theorem Datum.toRat_negate {d : Datum} {X : ℚ} (h : d.toRat = some X) : d.negate.toRat = some (-X) := by
  obtain ⟨neg, m, e, rfl, rfl⟩ := Datum.toRat_eq_some h
  cases neg <;> simp [Datum.negate, signedRat]

/-- A finite datum at a lower exponent: the same number, its integer scaled up. -/
theorem signedRat_eq_signedInt (neg : Bool) (m : Nat) {e lo : Int} (h : lo ≤ e) :
    signedRat neg m e = signedInt neg (m * 2 ^ (e - lo).toNat) * 2 ^ lo := by
  have hpow : (2 : ℚ) ^ e = 2 ^ (e - lo).toNat * 2 ^ lo := by
    rw [← zpow_natCast, ← zpow_add₀ (by norm_num)]
    congr 1
    omega
  rw [signedRat, hpow]
  cases neg <;> simp [signedInt, mul_assoc]

/-- The integer the model adds two finite data to, at the lower of their exponents. -/
def alignedSum (a : Bool) (m : Nat) (e : Int) (b : Bool) (n : Nat) (g : Int) : Int :=
  signedInt a (m * 2 ^ (e - min e g).toNat) + signedInt b (n * 2 ^ (g - min e g).toNat)

theorem FloatFormat.add_finite (f : FloatFormat) (a : Bool) (m : Nat) (e : Int) (b : Bool) (n : Nat) (g : Int) :
    f.add (.finite a m e) (.finite b n g) =
      some (f.round (if alignedSum a m e b n g = 0 then a && b else decide (alignedSum a m e b n g < 0))
        (alignedSum a m e b n g).natAbs 1 (min e g)) := rfl

theorem signedRat_add (a : Bool) (m : Nat) (e : Int) (b : Bool) (n : Nat) (g : Int) :
    signedRat a m e + signedRat b n g = alignedSum a m e b n g * 2 ^ min e g := by
  rw [signedRat_eq_signedInt a m (min_le_left e g), signedRat_eq_signedInt b n (min_le_right e g), alignedSum]
  push_cast
  ring

/-- A sum of finite data carries the exact sum's sign, an exact zero the sign both addends have. -/
theorem FloatFormat.add_hasSign_of_toRat {f : FloatFormat} {d d' : Datum} {X Y : ℚ} {n : Nat} (hX : d.toRat = some X)
    (hY : d'.toRat = some Y) (h : f.add d d' = some n) :
    f.HasSign n (if X + Y = 0 then d.neg && d'.neg else decide (X + Y < 0)) := by
  obtain ⟨a, m, e, rfl, rfl⟩ := Datum.toRat_eq_some hX
  obtain ⟨b, k, g, rfl, rfl⟩ := Datum.toRat_eq_some hY
  rw [FloatFormat.add_finite] at h
  have hpow : (0 : ℚ) < 2 ^ min e g := by positivity
  have hzero : signedRat a m e + signedRat b k g = 0 ↔ alignedSum a m e b k g = 0 := by
    rw [signedRat_add, mul_eq_zero_iff_right hpow.ne', Int.cast_eq_zero]
  have hneg : signedRat a m e + signedRat b k g < 0 ↔ alignedSum a m e b k g < 0 := by
    rw [signedRat_add, Rat.mul_neg_iff_of_pos_right hpow, Int.cast_lt_zero]
  simp only [hzero, hneg]
  exact Option.some.inj h ▸ f.hasSign_round ..

/-- A zero sum of zeros carries the sign both have. -/
theorem FloatFormat.add_zeros (f : FloatFormat) (a : Bool) (e : Int) (b : Bool) (g : Int) :
    f.add (.finite a 0 e) (.finite b 0 g) = some (f.withSign (a && b) 0) := by
  have hsum : alignedSum a 0 e b 0 g = 0 := by
    cases a <;> cases b <;> simp [alignedSum, signedInt]
  rw [FloatFormat.add_finite, hsum, if_pos rfl]
  rfl

end Sys2Proof.Machine
end

section
/-! The float operations on bit patterns, for both widths at once: what the bit patterns of a format stand for, and the
statements of 43_arith.md section 4 that follow from the operations on data. -/

namespace Sys2Proof.Machine

/-- An operation on the bit patterns of a format of width `w`. -/
def FloatFormat.opBits (f : FloatFormat) {w : Nat} (op : ArithOp) (x y : BitVec w) : Option (BitVec w) :=
  (f.op op (f.unpack x.toNat) (f.unpack y.toNat)).map (BitVec.ofNat w)

theorem floatOp32_eq : floatOp32 = binary32.opBits := rfl

theorem floatOp64_eq : floatOp64 = binary64.opBits := rfl

/-- What the masks of a format of width `w` tell of its bit patterns: `nan` holds of the NaN encodings, `inf` is the
positive infinity and with it the exponent field, `mag` covers all but the sign bit and `sgn` is the sign bit. -/
structure FloatFormat.Encodes (f : FloatFormat) {w : Nat} (nan : BitVec w → Bool) (inf mag sgn : BitVec w) : Prop where
  nan_iff : ∀ x : BitVec w, nan x = true ↔ f.unpack x.toNat = .nan
  inf_iff : ∀ x : BitVec w, x &&& mag = inf ↔ f.unpack x.toNat = .inf x.msb
  zero_iff : ∀ x : BitVec w, x &&& mag = 0#w ↔ ∃ e, f.unpack x.toNat = .finite x.msb 0 e
  finite_iff : ∀ x : BitVec w, x &&& inf ≠ inf ↔ ∃ m e, f.unpack x.toNat = .finite x.msb m e
  unpack_flip : ∀ x : BitVec w, f.unpack (x ^^^ sgn).toNat = (f.unpack x.toNat).negate
  msb_flip : ∀ x : BitVec w, (x ^^^ sgn).msb = !x.msb
  neg_unpack : ∀ x : BitVec w, f.unpack x.toNat ≠ .nan → (f.unpack x.toNat).neg = x.msb
  eq_infinity : ∀ x : BitVec w, f.unpack x.toNat = .inf x.msb → x = BitVec.ofNat w (f.infinity x.msb)
  withSign_spec : ∀ neg m, m ≤ f.topExp * f.expUnit → f.withSign neg m < 2 ^ w ∧
    nan (BitVec.ofNat w (f.withSign neg m)) = false ∧ (BitVec.ofNat w (f.withSign neg m)).msb = neg
  infinity_pos : BitVec.ofNat w (f.infinity false) = inf
  infinity_neg : BitVec.ofNat w (f.infinity true) = inf ^^^ sgn
  zero_neg : BitVec.ofNat w (f.withSign true 0) = sgn

theorem binary32_encodes : binary32.Encodes isNaN32 0x7F800000#32 0x7FFFFFFF#32 0x80000000#32 where
  nan_iff := isNaN32_iff
  inf_iff := inf32_iff
  zero_iff x := by
    refine (zero32_iff x).trans ⟨fun h => ⟨_, h⟩, fun ⟨e, h⟩ => ?_⟩
    rw [unpack32_eq] at h ⊢
    split at h
    · split at h <;> cases h
    · split at h
      · simp_all
      · injection h
        omega
  finite_iff := finite32_iff
  unpack_flip := unpack32_flip
  msb_flip x := by rw [BitVec.msb_xor, show (0x80000000#32).msb = true from rfl, Bool.xor_true]
  neg_unpack x h := by
    obtain ⟨hinf, hfin⟩ := unpack32_sign x
    cases hd : binary32.unpack x.toNat with
    | nan => exact absurd hd h
    | inf a => exact hinf a hd
    | finite a m e => exact hfin a m e hd
  eq_infinity x h := by
    rw [← inf32_iff, mag32_iff x 0x7F800000 (by norm_num)] at h
    apply BitVec.eq_of_toNat_eq
    rw [msb32_eq, BitVec.toNat_ofNat]
    have hx := x.isLt
    by_cases hneg : x.toNat / 2 ^ 31 % 2 = 1
    · rw [decide_eq_true hneg, show binary32.infinity true = 0xFF800000 from rfl]
      omega
    · rw [decide_eq_false hneg, show binary32.infinity false = 0x7F800000 from rfl]
      omega
  withSign_spec := withSign32_spec
  infinity_pos := rfl
  infinity_neg := rfl
  zero_neg := rfl

theorem binary64_encodes :
    binary64.Encodes isNaN64 0x7FF0000000000000#64 0x7FFFFFFFFFFFFFFF#64 0x8000000000000000#64 where
  nan_iff := isNaN64_iff
  inf_iff := inf64_iff
  zero_iff x := by
    refine (zero64_iff x).trans ⟨fun h => ⟨_, h⟩, fun ⟨e, h⟩ => ?_⟩
    rw [unpack64_eq] at h ⊢
    split at h
    · split at h <;> cases h
    · split at h
      · simp_all
      · injection h
        omega
  finite_iff := finite64_iff
  unpack_flip := unpack64_flip
  msb_flip x := by rw [BitVec.msb_xor, show (0x8000000000000000#64).msb = true from rfl, Bool.xor_true]
  neg_unpack x h := by
    obtain ⟨hinf, hfin⟩ := unpack64_sign x
    cases hd : binary64.unpack x.toNat with
    | nan => exact absurd hd h
    | inf a => exact hinf a hd
    | finite a m e => exact hfin a m e hd
  eq_infinity x h := by
    rw [← inf64_iff, mag64_iff x 0x7FF0000000000000 (by norm_num)] at h
    apply BitVec.eq_of_toNat_eq
    rw [msb64_eq, BitVec.toNat_ofNat]
    have hx := x.isLt
    by_cases hneg : x.toNat / 2 ^ 63 % 2 = 1
    · rw [decide_eq_true hneg, show binary64.infinity true = 0xFFF0000000000000 from rfl]
      omega
    · rw [decide_eq_false hneg, show binary64.infinity false = 0x7FF0000000000000 from rfl]
      omega
  withSign_spec := withSign64_spec
  infinity_pos := rfl
  infinity_neg := rfl
  zero_neg := rfl

namespace FloatFormat.Encodes

variable {f : FloatFormat} {w : Nat} {nan : BitVec w → Bool} {inf mag sgn : BitVec w}

section

variable (H : f.Encodes nan inf mag sgn)

include H

/-! ### Patterns -/

/-- A pattern stands for NaN, an infinity or a finite number of its own sign. -/
theorem unpack_cases (x : BitVec w) : f.unpack x.toNat = .nan ∨ f.unpack x.toNat = .inf x.msb ∨
    ∃ m e, f.unpack x.toNat = .finite x.msb m e := by
  have hsign := H.neg_unpack x
  cases hd : f.unpack x.toNat with
  | nan => exact .inl rfl
  | inf a =>
    rw [hd] at hsign
    exact .inr (.inl (congrArg _ (hsign nofun)))
  | finite a m e =>
    rw [hd] at hsign
    exact .inr (.inr ⟨m, e, congrArg (Datum.finite · m e) (hsign nofun)⟩)

theorem inf_iff_exists (x : BitVec w) : x &&& mag = inf ↔ ∃ a, f.unpack x.toNat = .inf a := by
  rw [H.inf_iff]
  refine ⟨fun h => ⟨_, h⟩, fun ⟨a, h⟩ => ?_⟩
  have hsign := H.neg_unpack x
  rw [h] at hsign ⊢
  exact congrArg _ (hsign nofun)

theorem zero_iff_exists (x : BitVec w) : x &&& mag = 0#w ↔ ∃ a e, f.unpack x.toNat = .finite a 0 e := by
  rw [H.zero_iff]
  refine ⟨fun ⟨e, h⟩ => ⟨_, e, h⟩, fun ⟨a, e, h⟩ => ⟨e, ?_⟩⟩
  have hsign := H.neg_unpack x
  rw [h] at hsign ⊢
  exact congrArg (Datum.finite · 0 e) (hsign nofun)

theorem nan_eq_false_iff (x : BitVec w) : nan x = false ↔ f.unpack x.toNat ≠ .nan := by
  rw [← Bool.not_eq_true, H.nan_iff]

/-- An infinity's pattern is the infinity of its sign. -/
theorem ofNat_infinity_msb {x : BitVec w} (hx : x &&& mag = inf) : BitVec.ofNat w (f.infinity x.msb) = x :=
  (H.eq_infinity x ((H.inf_iff x).1 hx)).symm

theorem ofNat_infinity_not_msb {x : BitVec w} (hx : x &&& mag = inf) :
    BitVec.ofNat w (f.infinity !x.msb) = x ^^^ sgn := by
  have hflip : f.unpack (x ^^^ sgn).toNat = .inf (x ^^^ sgn).msb := by
    rw [H.unpack_flip, (H.inf_iff x).1 hx, H.msb_flip]
    rfl
  rw [← H.msb_flip, ← H.eq_infinity _ hflip]

theorem ofNat_infinity_xor (a b : Bool) :
    BitVec.ofNat w (f.infinity (a ^^ b)) = if a = b then inf else inf ^^^ sgn := by
  cases a <;> cases b
  · exact H.infinity_pos
  · exact H.infinity_neg
  · exact H.infinity_neg
  · exact H.infinity_pos

theorem ofNat_zero (neg : Bool) : BitVec.ofNat w (f.withSign neg 0) = if neg then sgn else 0#w := by
  cases neg
  · rfl
  · exact H.zero_neg

theorem ofNat_zero_xor (a b : Bool) : BitVec.ofNat w (f.withSign (a ^^ b) 0) = if a = b then 0#w else sgn := by
  rw [H.ofNat_zero]
  cases a <;> cases b <;> rfl

/-- A pattern with a sign is no NaN encoding, and its sign bit is that sign. -/
theorem hasSign_spec {n : Nat} {neg : Bool} (h : f.HasSign n neg) :
    n < 2 ^ w ∧ nan (BitVec.ofNat w n) = false ∧ (BitVec.ofNat w n).msb = neg := by
  obtain ⟨m, hm, rfl⟩ := h
  exact H.withSign_spec neg m hm

/-! ### NaN results, zero divisors and infinities -/

theorem opBits_eq_none_iff (op : ArithOp) (x y : BitVec w) : f.opBits op x y = none ↔
    nan x = true ∨ nan y = true ∨
      (x &&& mag = inf ∧ y &&& mag = inf ∧
        (op = .div ∨ (op = .add ∧ x.msb ≠ y.msb) ∨ (op = .sub ∧ x.msb = y.msb))) ∨
      (x &&& mag = 0#w ∧ y &&& mag = 0#w ∧ op = .div) ∨
      (op = .mul ∧ ((x &&& mag = 0#w ∧ y &&& mag = inf) ∨ (x &&& mag = inf ∧ y &&& mag = 0#w))) := by
  rw [FloatFormat.opBits, Option.map_eq_none_iff, FloatFormat.op_eq_none_iff, H.nan_iff, H.nan_iff, H.zero_iff_exists,
    H.zero_iff_exists, ← H.inf_iff_exists, ← H.inf_iff_exists]
  have hinf : (∃ a b, f.unpack x.toNat = .inf a ∧ f.unpack y.toNat = .inf b ∧
        (op = .div ∨ (op = .add ∧ a ≠ b) ∨ (op = .sub ∧ a = b))) ↔
      x &&& mag = inf ∧ y &&& mag = inf ∧
        (op = .div ∨ (op = .add ∧ x.msb ≠ y.msb) ∨ (op = .sub ∧ x.msb = y.msb)) := by
    rw [H.inf_iff, H.inf_iff]
    refine ⟨fun ⟨a, b, ha, hb, h⟩ => ?_, fun ⟨ha, hb, h⟩ => ⟨_, _, ha, hb, h⟩⟩
    have hx := (H.inf_iff x).1 ((H.inf_iff_exists x).2 ⟨a, ha⟩)
    have hy := (H.inf_iff y).1 ((H.inf_iff_exists y).2 ⟨b, hb⟩)
    obtain rfl := Datum.inf.inj (ha.symm.trans hx)
    obtain rfl := Datum.inf.inj (hb.symm.trans hy)
    exact ⟨hx, hy, h⟩
  rw [hinf]

theorem opBits_div_zero {x y : BitVec w} (hnan : nan x = false) (hx : x &&& mag ≠ 0#w) (hy : y &&& mag = 0#w) :
    f.opBits .div x y = some (if x.msb = y.msb then inf else inf ^^^ sgn) := by
  obtain ⟨g, hyu⟩ := (H.zero_iff y).1 hy
  rw [FloatFormat.opBits, hyu, ← H.ofNat_infinity_xor]
  rcases H.unpack_cases x with hxu | hxu | ⟨m, e, hxu⟩
  · exact absurd hxu ((H.nan_eq_false_iff x).1 hnan)
  · rw [hxu]
    rfl
  · have hm : m ≠ 0 := by
      rintro rfl
      exact hx ((H.zero_iff x).2 ⟨e, hxu⟩)
    rw [hxu]
    simp only [FloatFormat.op, FloatFormat.div, if_true, if_neg hm, Option.map_some]

section

variable {x y : BitVec w} (hx : x &&& mag = inf)

include hx

theorem opBits_add_inf (hy : y &&& inf ≠ inf ∨ (y &&& mag = inf ∧ y.msb = x.msb)) :
    f.opBits .add x y = some x ∧ f.opBits .add y x = some x := by
  have hxu := (H.inf_iff x).1 hx
  have hres := H.ofNat_infinity_msb hx
  rw [FloatFormat.opBits, FloatFormat.opBits, hxu]
  rcases hy with hy | ⟨hy, hsign⟩
  · obtain ⟨m, e, hyu⟩ := (H.finite_iff y).1 hy
    simp [hyu, FloatFormat.op, FloatFormat.add, hres]
  · simp [(H.inf_iff y).1 hy, hsign, FloatFormat.op, FloatFormat.add, hres]

theorem opBits_sub_inf (hy : y &&& inf ≠ inf ∨ (y &&& mag = inf ∧ y.msb ≠ x.msb)) :
    f.opBits .sub x y = some x ∧ f.opBits .sub y x = some (x ^^^ sgn) := by
  have hxu := (H.inf_iff x).1 hx
  have hres := H.ofNat_infinity_msb hx
  have hneg := H.ofNat_infinity_not_msb hx
  rw [FloatFormat.opBits, FloatFormat.opBits, hxu]
  rcases hy with hy | ⟨hy, hsign⟩
  · obtain ⟨m, e, hyu⟩ := (H.finite_iff y).1 hy
    simp [hyu, FloatFormat.op, FloatFormat.sub, FloatFormat.add, Datum.negate, hres, hneg]
  · have hsign' : y.msb = !x.msb := Bool.eq_not.2 hsign
    simp [(H.inf_iff y).1 hy, hsign', FloatFormat.op, FloatFormat.sub, FloatFormat.add, Datum.negate, hres, hneg]

theorem opBits_mul_inf (hnan : nan y = false) (hy : y &&& mag ≠ 0#w) :
    f.opBits .mul x y = some (if x.msb = y.msb then inf else inf ^^^ sgn) ∧
      f.opBits .mul y x = some (if x.msb = y.msb then inf else inf ^^^ sgn) := by
  rw [← H.ofNat_infinity_xor, FloatFormat.opBits, FloatFormat.opBits, (H.inf_iff x).1 hx]
  rcases H.unpack_cases y with hyu | hyu | ⟨m, e, hyu⟩
  · exact absurd hyu ((H.nan_eq_false_iff y).1 hnan)
  · simp [hyu, FloatFormat.op, FloatFormat.mul, Bool.xor_comm]
  · have hm : m ≠ 0 := by
      rintro rfl
      exact hy ((H.zero_iff y).2 ⟨e, hyu⟩)
    simp [hyu, hm, FloatFormat.op, FloatFormat.mul, Bool.xor_comm]

theorem opBits_div_inf (hy : y &&& inf ≠ inf) :
    f.opBits .div x y = some (if x.msb = y.msb then inf else inf ^^^ sgn) ∧
      f.opBits .div y x = some (if x.msb = y.msb then 0#w else sgn) := by
  obtain ⟨m, e, hyu⟩ := (H.finite_iff y).1 hy
  rw [← H.ofNat_infinity_xor, ← H.ofNat_zero_xor, FloatFormat.opBits, FloatFormat.opBits, (H.inf_iff x).1 hx, hyu]
  simp [FloatFormat.op, FloatFormat.div, Bool.xor_comm]

end

/-! ### Zeros -/

theorem opBits_self {x : BitVec w} (hx : x &&& inf ≠ inf) :
    f.opBits .sub x x = some 0#w ∧ f.opBits .add x (x ^^^ sgn) = some 0#w := by
  obtain ⟨m, e, hxu⟩ := (H.finite_iff x).1 hx
  have hzero := f.add_negate_self x.msb m e
  rw [FloatFormat.opBits, FloatFormat.opBits, H.unpack_flip, hxu]
  exact ⟨congrArg (Option.map (BitVec.ofNat w)) hzero, congrArg (Option.map (BitVec.ofNat w)) hzero⟩

theorem opBits_zeros {x y : BitVec w} (hx : x &&& mag = 0#w) (hy : y &&& mag = 0#w) :
    f.opBits .add x y = some (if x.msb && y.msb then sgn else 0#w) ∧
      f.opBits .sub x y = some (if x.msb && !y.msb then sgn else 0#w) := by
  obtain ⟨e, hxu⟩ := (H.zero_iff x).1 hx
  obtain ⟨g, hyu⟩ := (H.zero_iff y).1 hy
  rw [FloatFormat.opBits, FloatFormat.opBits, hxu, hyu, ← H.ofNat_zero, ← H.ofNat_zero]
  exact ⟨congrArg (Option.map (BitVec.ofNat w)) (f.add_zeros x.msb e y.msb g),
    congrArg (Option.map (BitVec.ofNat w)) (f.add_zeros x.msb e (!y.msb) g)⟩

/-! ### Signs -/

/-- The sign of a result: a difference is the sum with the subtrahend's sign turned. -/
theorem opBits_sign {op : ArithOp} {x y b : BitVec w} (h : f.opBits op x y = some b) :
    nan b = false ∧ (op = .mul ∨ op = .div → b.msb = (x.msb ^^ y.msb)) ∧
      (op = .add ∨ op = .sub →
        (∀ X Y, (f.unpack x.toNat).toRat = some X → (f.unpack y.toNat).toRat = some Y →
          b.msb = if exactRat op X Y = 0 then x.msb && (y.msb ^^ decide (op = .sub)) else decide (exactRat op X Y < 0)) ∧
        (x &&& mag = inf → b.msb = x.msb) ∧
        (y &&& mag = inf → b.msb = (y.msb ^^ decide (op = .sub)))) := by
  obtain ⟨n, hn, rfl⟩ := Option.map_eq_some_iff.1 h
  have hop : ¬f.op op (f.unpack x.toNat) (f.unpack y.toNat) = none := by
    rw [hn]
    exact nofun
  have hxn : f.unpack x.toNat ≠ .nan := fun hx => hop ((f.op_eq_none_iff ..).2 (.inl hx))
  have hyn : f.unpack y.toNat ≠ .nan := fun hy => hop ((f.op_eq_none_iff ..).2 (.inr (.inl hy)))
  have hx := H.neg_unpack x hxn
  have hy := H.neg_unpack y hyn
  obtain ⟨neg, hneg⟩ := FloatFormat.op_hasSign hn
  refine ⟨(H.hasSign_spec hneg).2.1, ?product, ?sum⟩
  case product =>
    rw [← hx, ← hy]
    rintro (rfl | rfl)
    · exact (H.hasSign_spec (FloatFormat.mul_hasSign hn)).2.2
    · exact (H.hasSign_spec (FloatFormat.div_hasSign hn)).2.2
  case sum =>
    rintro (rfl | rfl)
    · rw [show decide (ArithOp.add = .sub) = false from rfl, Bool.xor_false]
      refine ⟨fun X Y hX hY => ?_, fun hxi => ?_, fun hyi => ?_⟩
      · rw [← hx, ← hy]
        exact (H.hasSign_spec (FloatFormat.add_hasSign_of_toRat hX hY hn)).2.2
      · rw [FloatFormat.op, (H.inf_iff x).1 hxi] at hn
        exact (H.hasSign_spec (FloatFormat.add_hasSign_of_inf_left hn)).2.2
      · rw [FloatFormat.op, (H.inf_iff y).1 hyi] at hn
        exact (H.hasSign_spec (FloatFormat.add_hasSign_of_inf_right hn)).2.2
    · rw [show decide (ArithOp.sub = .sub) = true from rfl, Bool.xor_true]
      refine ⟨fun X Y hX hY => ?_, fun hxi => ?_, fun hyi => ?_⟩
      · rw [← hx, ← hy, ← Datum.neg_negate hyn, exactRat, sub_eq_add_neg]
        exact (H.hasSign_spec (FloatFormat.add_hasSign_of_toRat hX (Datum.toRat_negate hY) hn)).2.2
      · rw [FloatFormat.op, FloatFormat.sub, (H.inf_iff x).1 hxi] at hn
        exact (H.hasSign_spec (FloatFormat.add_hasSign_of_inf_left hn)).2.2
      · rw [FloatFormat.op, FloatFormat.sub, (H.inf_iff y).1 hyi] at hn
        exact (H.hasSign_spec (FloatFormat.add_hasSign_of_inf_right hn)).2.2

end

end FloatFormat.Encodes

/-! ### The statements at both widths -/

/-- Settles O44: `opBits_eq_none_iff` at both widths. -/
theorem nanResultsAreTheInvalidOperations : Obligations.NanResultsAreTheInvalidOperations := by
  rw [Obligations.NanResultsAreTheInvalidOperations, floatOp32_eq, floatOp64_eq]
  exact ⟨binary32_encodes.opBits_eq_none_iff, binary64_encodes.opBits_eq_none_iff⟩

/-- Settles O45: `opBits_div_zero` at both widths. -/
theorem floatDivisionByZeroGivesInfinity : Obligations.FloatDivisionByZeroGivesInfinity := by
  rw [Obligations.FloatDivisionByZeroGivesInfinity, floatOp32_eq, floatOp64_eq]
  exact ⟨fun _ _ => binary32_encodes.opBits_div_zero, fun _ _ => binary64_encodes.opBits_div_zero⟩

/-- Settles O46: `opBits_sign` at both widths. -/
theorem floatResultsCarryTheRightSign : Obligations.FloatResultsCarryTheRightSign := by
  rw [Obligations.FloatResultsCarryTheRightSign, floatOp32_eq, floatOp64_eq]
  exact ⟨fun _ _ _ _ h => binary32_encodes.opBits_sign h, fun _ _ _ _ h => binary64_encodes.opBits_sign h⟩

/-- Settles O47: `opBits_self` and `opBits_zeros` at both widths. -/
theorem floatZeroSumsAndSelfDifferences : Obligations.FloatZeroSumsAndSelfDifferences := by
  rw [Obligations.FloatZeroSumsAndSelfDifferences, floatOp32_eq, floatOp64_eq]
  exact ⟨fun _ => binary32_encodes.opBits_self, fun _ => binary64_encodes.opBits_self,
    fun _ _ => binary32_encodes.opBits_zeros, fun _ _ => binary64_encodes.opBits_zeros⟩

/-- Settles O60: the four operations with an infinity, at both widths. -/
theorem floatOperationsWithAnInfinity : Obligations.FloatOperationsWithAnInfinity := by
  rw [Obligations.FloatOperationsWithAnInfinity, floatOp32_eq, floatOp64_eq]
  exact ⟨fun _ _ hx => ⟨binary32_encodes.opBits_add_inf hx, binary32_encodes.opBits_sub_inf hx,
      binary32_encodes.opBits_mul_inf hx, binary32_encodes.opBits_div_inf hx⟩,
    fun _ _ hx => ⟨binary64_encodes.opBits_add_inf hx, binary64_encodes.opBits_sub_inf hx,
      binary64_encodes.opBits_mul_inf hx, binary64_encodes.opBits_div_inf hx⟩⟩

/-! ### NaN encodings -/

/-- Bits or-ed in are seen through a mask beside those that were there. -/
theorem or_and_distrib {w : Nat} (x m k : BitVec w) : (x ||| m) &&& k = (x &&& k) ||| (m &&& k) := by
  ext i
  simp [Bool.and_or_distrib_right]

/-- Or-ing in bits that are all set changes nothing. -/
theorem or_eq_self {w : Nat} {x m : BitVec w} (h : x &&& m = m) : x ||| m = x := by
  rw [← h]
  ext i
  simp +contextual

/-- Or-ing in the bits of a mask sets them. -/
theorem or_and_self {w : Nat} (x k : BitVec w) : (x &&& k) ||| k = k := by
  ext i
  simp

theorem isNaN32_nanOf32 (raw : BitVec 32) : isNaN32 (nanOf32 raw) = true := by
  unfold nanOf32
  split
  · rename_i h
    simp [isNaN32, or_and_distrib, or_and_self, h]
  · rename_i h
    simp [isNaN32, or_and_distrib, or_and_self, h]

theorem isNaN64_nanOf64 (raw : BitVec 64) : isNaN64 (nanOf64 raw) = true := by
  unfold nanOf64
  split
  · rename_i h
    simp [isNaN64, or_and_distrib, or_and_self, h]
  · rename_i h
    simp [isNaN64, or_and_distrib, or_and_self, h]

/-- A NaN encoding drawn is kept as it is. -/
theorem nanOf32_of_isNaN32 {b : BitVec 32} (h : isNaN32 b = true) : nanOf32 b = b := by
  obtain ⟨hexp, hfrac⟩ : b &&& 0x7F800000#32 = 0x7F800000#32 ∧ b &&& 0x007FFFFF#32 ≠ 0#32 := by
    simpa only [isNaN32, Bool.and_eq_true, decide_eq_true_eq] using h
  rw [nanOf32, if_neg hfrac, or_eq_self hexp]

theorem nanOf64_of_isNaN64 {b : BitVec 64} (h : isNaN64 b = true) : nanOf64 b = b := by
  obtain ⟨hexp, hfrac⟩ : b &&& 0x7FF0000000000000#64 = 0x7FF0000000000000#64 ∧ b &&& 0x000FFFFFFFFFFFFF#64 ≠ 0#64 := by
    simpa only [isNaN64, Bool.and_eq_true, decide_eq_true_eq] using h
  rw [nanOf64, if_neg hfrac, or_eq_self hexp]

/-- Settles O43: every draw is made a NaN encoding, and a NaN encoding is made from itself. -/
theorem nanResultRangesOverAllNans : Obligations.NanResultRangesOverAllNans :=
  ⟨isNaN32_nanOf32, fun b h => ⟨b, nanOf32_of_isNaN32 h⟩, isNaN64_nanOf64, fun b h => ⟨b, nanOf64_of_isNaN64 h⟩⟩

/-! ### Execution -/

/-- Settles O42: the dispatch answers a value for every pair of floats of one width, and the write is in range. -/
theorem floatArithmeticAlwaysCompletes : Obligations.FloatArithmeticAlwaysCompletes := by
  intro op ra rb rd s h
  refine ⟨fun x y ha hb => ?_, fun x y ha hb => ?_⟩
  · rcases hr : floatOp32 op x y with _ | b
    · have hv : arith op s.nanDraws (.f32 x) (.f32 y) =
          .value (.f32 (nanOf32 (Config.nanDraw32 s.nanDraws op x y))) 1 := by
        simp only [arith, floatResult32, hr]
      exact .inr ⟨rfl, _, isNaN32_nanOf32 _, exec_instr_of_value_of_lt ha hb hv h⟩
    · have hv : arith op s.nanDraws (.f32 x) (.f32 y) = .value (.f32 b) 0 := by
        simp only [arith, floatResult32, hr]
      exact .inl ⟨b, rfl, exec_instr_of_value_of_lt ha hb hv h⟩
  · rcases hr : floatOp64 op x y with _ | b
    · have hv : arith op s.nanDraws (.f64 x) (.f64 y) =
          .value (.f64 (nanOf64 (Config.nanDraw64 s.nanDraws op x y))) 1 := by
        simp only [arith, floatResult64, hr]
      exact .inr ⟨rfl, _, isNaN64_nanOf64 _, exec_instr_of_value_of_lt ha hb hv h⟩
    · have hv : arith op s.nanDraws (.f64 x) (.f64 y) = .value (.f64 b) 0 := by
        simp only [arith, floatResult64, hr]
      exact .inl ⟨b, rfl, exec_instr_of_value_of_lt ha hb hv h⟩

end Sys2Proof.Machine
end

section
/-! Correct rounding: what the rounding of a rational gives is the representable number nearest to it, an even one at a
tie, and an infinity from half a unit past the greatest finite number on (00_scope.md R18). -/

namespace Sys2Proof.Machine

namespace FloatFormat

variable {f : FloatFormat}

/-! ### The fields of a pattern -/

theorem expUnit_pos (f : FloatFormat) : 0 < f.expUnit := Nat.two_pow_pos _

theorem signUnit_eq (f : FloatFormat) : f.signUnit = 2 ^ f.expBits * f.expUnit := Nat.pow_add ..

theorem topExp_lt (f : FloatFormat) : f.topExp < 2 ^ f.expBits := Nat.sub_lt (Nat.two_pow_pos _) Nat.one_pos

theorem infinity_lt_signUnit (f : FloatFormat) : f.topExp * f.expUnit < f.signUnit := by
  rw [signUnit_eq]
  exact Nat.mul_lt_mul_of_pos_right f.topExp_lt f.expUnit_pos

/-- The datum of a magnitude under a sign, from its exponent field and its fraction field. -/
theorem unpack_withSign (neg : Bool) {mag : Nat} (h : mag < f.signUnit) : f.unpack (f.withSign neg mag) =
    if mag / f.expUnit = f.topExp then (if mag % f.expUnit = 0 then .inf neg else .nan)
    else if mag / f.expUnit = 0 then .finite neg (mag % f.expUnit) f.minExp
    else .finite neg (f.expUnit + mag % f.expUnit) (f.minExp + (mag / f.expUnit - 1 : Nat)) := by
  have hu := f.expUnit_pos
  have hfield : mag / f.expUnit < 2 ^ f.expBits := by
    rwa [Nat.div_lt_iff_lt_mul hu, ← signUnit_eq]
  have hmant (c : Nat) : (c * f.signUnit + mag) % f.expUnit = mag % f.expUnit := by
    rw [signUnit_eq, ← Nat.mul_assoc, Nat.mul_comm _ f.expUnit, Nat.mul_add_mod]
  have hexp (c : Nat) : (c * f.signUnit + mag) / f.expUnit % 2 ^ f.expBits = mag / f.expUnit := by
    rw [signUnit_eq, ← Nat.mul_assoc, Nat.mul_comm _ f.expUnit, Nat.mul_add_div hu, Nat.mul_comm c, Nat.mul_add_mod,
      Nat.mod_eq_of_lt hfield]
  have hsign (c : Nat) : (c * f.signUnit + mag) / f.signUnit = c := by
    rw [Nat.mul_comm, Nat.mul_add_div (by omega), Nat.div_eq_of_lt h, Nat.add_zero]
  have hbits : f.withSign neg mag = neg.toNat * f.signUnit + mag := by
    cases neg <;> simp [withSign]
  have hneg : decide (neg.toNat % 2 = 1) = neg := by
    cases neg <;> rfl
  simp only [unpack, hbits, hmant, hexp, hsign, hneg]

/-- An infinity's pattern stands for that infinity. -/
theorem unpack_infinity (neg : Bool) : f.unpack (f.infinity neg) = .inf neg := by
  rw [infinity, unpack_withSign neg f.infinity_lt_signUnit, Nat.mul_div_cancel _ f.expUnit_pos, Nat.mul_mod_left,
    if_pos rfl, if_pos rfl]

/-- The finite numbers of a format: an integer of as many bits as the significand holds, from the least subnormal's
place on. -/
theorem lt_of_unpack_eq_finite {z m : Nat} {neg : Bool} {e : Int} (h : f.unpack z = .finite neg m e) :
    m < 2 * f.expUnit ∧ f.minExp ≤ e := by
  have hmod : z % f.expUnit < f.expUnit := Nat.mod_lt _ f.expUnit_pos
  simp only [unpack] at h
  split at h
  · split at h <;> cases h
  · split at h
    · cases h
      omega
    · cases h
      omega

/-- A significand added to its exponent's place is the number's pattern: below a unit it is a subnormal, and at two
units it carries into the exponent field. -/
theorem toRat_unpack_place (neg : Bool) {k sig : Nat} (hk : k = 0 ∨ f.expUnit ≤ sig) (hsig : sig ≤ 2 * f.expUnit)
    (h : k * f.expUnit + sig < f.topExp * f.expUnit) :
    (f.unpack (f.withSign neg (k * f.expUnit + sig))).toRat = some (signedRat neg sig (f.minExp + k)) := by
  have hu := f.expUnit_pos
  rw [unpack_withSign neg (h.trans f.infinity_lt_signUnit)]
  have hfield : (k * f.expUnit + sig) / f.expUnit ≠ f.topExp := by
    rw [← Nat.div_lt_iff_lt_mul hu] at h
    omega
  rw [if_neg hfield, Nat.mul_comm k, Nat.mul_add_div hu, Nat.mul_add_mod]
  rcases Nat.lt_or_ge sig f.expUnit with hsub | hnormal
  · obtain rfl : k = 0 := hk.resolve_right (Nat.not_le.2 hsub)
    rw [Nat.div_eq_of_lt hsub, Nat.mod_eq_of_lt hsub, if_pos rfl, Datum.toRat_finite, Nat.cast_zero, add_zero]
  · rcases Nat.lt_or_ge sig (2 * f.expUnit) with hlt | hge
    · have hdiv : sig / f.expUnit = 1 := Nat.div_eq_of_lt_le (by omega) (by omega)
      have hmod : f.expUnit + sig % f.expUnit = sig := by
        have hsplit := Nat.div_add_mod sig f.expUnit
        rwa [hdiv, Nat.mul_one] at hsplit
      rw [hdiv, if_neg (Nat.succ_ne_zero k), hmod, Datum.toRat_finite, Nat.add_sub_cancel]
    · obtain rfl : sig = 2 * f.expUnit := Nat.le_antisymm hsig hge
      have hexp : f.minExp + ((k + 2 - 1 : Nat) : Int) = f.minExp + k + 1 := by omega
      rw [Nat.mul_div_cancel _ hu, Nat.mul_mod_left, if_neg (Nat.succ_ne_zero (k + 1)), Datum.toRat_finite, hexp,
        signedRat, signedRat, zpow_add_one₀ (by norm_num)]
      push_cast
      congr 1
      ring

/-- Above the fraction field every bit of a pattern weighs an even number. -/
theorem withSign_even (hfrac : 1 ≤ f.fracBits) (neg : Bool) (k : Nat) {sig : Nat} (hsig : sig % 2 = 0) :
    f.withSign neg (k * f.expUnit + sig) % 2 = 0 := by
  have hu : 2 ∣ f.expUnit := dvd_pow_self 2 (by omega)
  have hs : 2 ∣ f.signUnit := dvd_pow_self 2 (by omega)
  have hk : 2 ∣ k * f.expUnit := hu.mul_left k
  unfold withSign
  split <;> omega

/-! ### Signs of rationals -/

theorem signedRat_eq_sign_mul (neg : Bool) (m : ℚ) (e : Int) :
    signedRat neg m e = (if neg then -1 else 1) * (m * 2 ^ e) := mul_assoc ..

/-- A number of either sign, seen from the side of the sign `neg`. -/
theorem signedRat_eq_xor (neg neg' : Bool) (m : Nat) (e : Int) :
    signedRat neg' m e = (if neg then -1 else 1) * (signedInt (neg ^^ neg') m * 2 ^ e) := by
  cases neg <;> cases neg' <;> simp [signedRat, signedInt]

theorem abs_sign_mul_sub (neg : Bool) (x y : ℚ) :
    |(if neg then -1 else 1) * x - (if neg then -1 else 1) * y| = |x - y| := by
  cases neg
  · simp
  · simp [neg_add_eq_sub, abs_sub_comm]

/-! ### The significand a rounding keeps -/

/-- `sig` is the positive rational `r` rounded to a whole number of units `2 ^ q`, ties to even, where `q` is the place
that leaves as many bits as the significand holds but never below the least subnormal's. -/
structure RoundsTo (f : FloatFormat) (r : ℚ) (q : Int) (sig : Nat) : Prop where
  near : |(sig : ℚ) - r / 2 ^ q| ≤ 1 / 2
  tie : |(sig : ℚ) - r / 2 ^ q| = 1 / 2 → sig % 2 = 0
  minExp_le : f.minExp ≤ q
  lt_top : r < 2 * f.expUnit * 2 ^ q
  normal : q = f.minExp ∨ f.expUnit * 2 ^ q ≤ r

theorem two_zpow_pos (q : Int) : (0 : ℚ) < 2 ^ q := by positivity

namespace RoundsTo

variable {r : ℚ} {q : Int} {sig : Nat}

theorem sig_le (h : f.RoundsTo r q sig) : sig ≤ 2 * f.expUnit := by
  have hlt : r / 2 ^ q < 2 * f.expUnit := (div_lt_iff₀ (two_zpow_pos q)).2 h.lt_top
  have hnear := (abs_le.1 h.near).2
  have hcast : (sig : ℚ) < (2 * f.expUnit + 1 : Nat) := by
    push_cast
    linarith
  exact Nat.lt_succ_iff.1 (Nat.cast_lt.1 hcast)

theorem le_sig (h : f.RoundsTo r q sig) : q = f.minExp ∨ f.expUnit ≤ sig := by
  refine h.normal.imp_right fun hr => ?_
  have hle : (f.expUnit : ℚ) ≤ r / 2 ^ q := (le_div_iff₀ (two_zpow_pos q)).2 hr
  have hnear := (abs_le.1 h.near).1
  have hcast : (f.expUnit : ℚ) < (sig + 1 : Nat) := by
    push_cast
    linarith
  exact Nat.lt_succ_iff.1 (Nat.cast_lt.1 hcast)

/-- A whole number of units is no nearer than the significand, and where it is as near the significand is even. -/
theorem near_le_of_unit (h : f.RoundsTo r q sig) (z : Int) : |(sig : ℚ) - r / 2 ^ q| ≤ |(z : ℚ) - r / 2 ^ q| ∧
    (|(sig : ℚ) - r / 2 ^ q| = |(z : ℚ) - r / 2 ^ q| → z = sig ∨ sig % 2 = 0) := by
  by_cases hz : z = sig
  · rw [hz, Int.cast_natCast]
    exact ⟨le_rfl, fun _ => .inl rfl⟩
  · have hgap : (1 : ℚ) ≤ |(z : ℚ) - sig| := by
      have hone : 1 ≤ |z - (sig : Int)| := Int.one_le_abs (sub_ne_zero.2 hz)
      exact_mod_cast hone
    have htri : |(z : ℚ) - sig| ≤ |(z : ℚ) - r / 2 ^ q| + |(sig : ℚ) - r / 2 ^ q| := by
      rw [abs_sub_comm (sig : ℚ)]
      exact abs_sub_le ..
    have hnear := h.near
    exact ⟨by linarith, fun heq => .inr (h.tie (by linarith))⟩

theorem scaled_abs (q : Int) (z r : ℚ) : |z * 2 ^ q - r| = |z - r / 2 ^ q| * 2 ^ q := by
  have hpos := two_zpow_pos q
  rw [← abs_of_pos hpos, ← abs_mul, abs_of_pos hpos, sub_mul, div_mul_cancel₀ _ hpos.ne']

/-- No number of the format, of either sign, is nearer to `r` than the rounded one, and where one is as near the
significand is even. -/
theorem near_le (h : f.RoundsTo r q sig) {z e : Int} (he : f.minExp ≤ e) (hz : z < 2 * f.expUnit) :
    |(sig : ℚ) * 2 ^ q - r| ≤ |(z : ℚ) * 2 ^ e - r| ∧
      (|(sig : ℚ) * 2 ^ q - r| = |(z : ℚ) * 2 ^ e - r| → (z : ℚ) * 2 ^ e = sig * 2 ^ q ∨ sig % 2 = 0) := by
  have hpos := two_zpow_pos q
  rcases le_or_gt q e with hqe | heq
  · have hscale : (z : ℚ) * 2 ^ e = (z * 2 ^ (e - q).toNat : Int) * 2 ^ q := by
      push_cast
      rw [mul_assoc, ← zpow_natCast, ← zpow_add₀ (by norm_num)]
      congr 2
      omega
    obtain ⟨hle, htie⟩ := h.near_le_of_unit (z * 2 ^ (e - q).toNat)
    rw [hscale, scaled_abs, scaled_abs]
    refine ⟨mul_le_mul_of_nonneg_right hle hpos.le, fun hd => ?_⟩
    exact (htie (mul_right_cancel₀ hpos.ne' hd)).imp_left fun hs => by rw [hs, Int.cast_natCast]
  · have hr : (f.expUnit : ℚ) * 2 ^ q ≤ r := h.normal.resolve_left (by omega)
    have hbelow : (z : ℚ) * 2 ^ e < f.expUnit * 2 ^ q := by
      have hz' : (z : ℚ) < 2 * f.expUnit := by exact_mod_cast hz
      calc (z : ℚ) * 2 ^ e < 2 * f.expUnit * 2 ^ e := mul_lt_mul_of_pos_right hz' (two_zpow_pos e)
        _ = f.expUnit * 2 ^ (e + 1) := by rw [zpow_add_one₀ (by norm_num)]; ring
        _ ≤ f.expUnit * 2 ^ q := by
          gcongr
          · norm_num
          · omega
    have hunit := (h.near_le_of_unit f.expUnit).1
    have hlt : |(sig : ℚ) * 2 ^ q - r| < |(z : ℚ) * 2 ^ e - r| := by
      calc |(sig : ℚ) * 2 ^ q - r| ≤ |(f.expUnit : ℚ) * 2 ^ q - r| := by
            rw [scaled_abs, scaled_abs]
            exact mul_le_mul_of_nonneg_right (by exact_mod_cast hunit) hpos.le
        _ = r - f.expUnit * 2 ^ q := by rw [abs_sub_comm, abs_of_nonneg (by linarith)]
        _ < r - z * 2 ^ e := by linarith
        _ = |(z : ℚ) * 2 ^ e - r| := by rw [abs_sub_comm, abs_of_nonneg (by linarith)]
    exact ⟨hlt.le, fun hd => absurd hd hlt.ne⟩

/-- The place of the significands of the greatest finite numbers. -/
theorem overflowAt_eq (f : FloatFormat) (q : Int) (hq : q = f.minExp + f.topExp - 2) :
    f.overflowAt = (2 * f.expUnit - 1 / 2) * 2 ^ q := by
  rw [FloatFormat.overflowAt, show f.minExp + (f.topExp : ℤ) - 3 = q - 1 by omega, zpow_sub_one₀ (by norm_num), expUnit,
    pow_add]
  push_cast
  ring

/-- In the greatest binade the significand rounds up to the next power of two exactly from half a unit below it. -/
theorem sig_eq_top_iff (h : f.RoundsTo r q sig) : 2 * f.expUnit ≤ sig ↔ (2 * f.expUnit - 1 / 2) * 2 ^ q ≤ r := by
  rw [← le_div_iff₀ (two_zpow_pos q)]
  obtain ⟨hlo, hhi⟩ := abs_le.1 h.near
  constructor
  · intro hsig
    have hcast : (2 * f.expUnit : ℚ) ≤ sig := by exact_mod_cast hsig
    linarith
  · intro hr
    by_contra hlt
    have hcast : (sig : ℚ) + 1 ≤ 2 * f.expUnit := by exact_mod_cast Nat.lt_of_not_le hlt
    have hdist : (sig : ℚ) - r / 2 ^ q = -(1 / 2) := by linarith
    have hodd : (sig : ℚ) + 1 = 2 * f.expUnit := by linarith
    have hodd' : sig + 1 = 2 * f.expUnit := by exact_mod_cast hodd
    have heven := h.tie (by rw [hdist]; norm_num)
    omega

/-- The pattern of a rounded number reaches infinity's exactly where rounding to nearest overflows. -/
theorem overflow_iff (h : f.RoundsTo r q sig) (htop : 3 ≤ f.topExp) :
    f.topExp * f.expUnit ≤ (q - f.minExp).toNat * f.expUnit + sig ↔ f.overflowAt ≤ r := by
  have hu := f.expUnit_pos
  have huq : (1 : ℚ) ≤ f.expUnit := by exact_mod_cast hu
  have hq := h.minExp_le
  obtain ⟨top, hT⟩ : ∃ top : Int, top = f.minExp + f.topExp - 2 := ⟨_, rfl⟩
  have htop_pos := two_zpow_pos top
  rw [overflowAt_eq f top hT]
  rcases lt_trichotomy q top with hlt | rfl | hgt
  · refine iff_of_false (Nat.not_le.2 ?_) (not_le.2 ?_)
    · have hk : (q - f.minExp).toNat + 3 ≤ f.topExp := by omega
      have hmul := Nat.mul_le_mul_right f.expUnit hk
      have hsig := h.sig_le
      rw [Nat.add_mul] at hmul
      omega
    · calc r < 2 * f.expUnit * 2 ^ q := h.lt_top
        _ = f.expUnit * 2 ^ (q + 1) := by rw [zpow_add_one₀ (by norm_num)]; ring
        _ ≤ f.expUnit * 2 ^ top := by
          gcongr
          · norm_num
          · omega
        _ ≤ (2 * f.expUnit - 1 / 2) * 2 ^ top := mul_le_mul_of_nonneg_right (by linarith) htop_pos.le
  · rw [← h.sig_eq_top_iff]
    obtain ⟨k, hk⟩ : ∃ k, f.topExp = k + 2 := ⟨f.topExp - 2, by omega⟩
    have hplace : (q - f.minExp).toNat = k := by omega
    rw [hplace, hk, Nat.add_mul]
    exact Nat.add_le_add_iff_left
  · refine iff_of_true ?_ ?_
    · have hk : f.topExp ≤ (q - f.minExp).toNat + 1 := by omega
      have hmul := Nat.mul_le_mul_right f.expUnit hk
      have hsig := h.le_sig.resolve_left (by omega)
      rw [Nat.add_mul, Nat.one_mul] at hmul
      omega
    · calc ((2 : ℚ) * f.expUnit - 1 / 2) * 2 ^ top ≤ 2 * f.expUnit * 2 ^ top :=
            mul_le_mul_of_nonneg_right (by linarith) htop_pos.le
        _ = f.expUnit * 2 ^ (top + 1) := by rw [zpow_add_one₀ (by norm_num)]; ring
        _ ≤ f.expUnit * 2 ^ q := by
          gcongr
          · norm_num
          · omega
        _ ≤ r := h.normal.resolve_left (by omega)

/-- The pattern of a rounded number is correctly rounded. -/
theorem isRounded (h : f.RoundsTo r q sig) (hfrac : 1 ≤ f.fracBits) (htop : 3 ≤ f.topExp) (hr : 0 < r) (neg : Bool) :
    f.IsRounded ((if neg then -1 else 1) * r)
      (if f.topExp * f.expUnit ≤ (q - f.minExp).toNat * f.expUnit + sig then f.infinity neg
        else f.withSign neg ((q - f.minExp).toNat * f.expUnit + sig)) := by
  have habs : |(if neg then -1 else 1) * r| = r := by
    cases neg <;> simp [abs_of_pos hr]
  have hover := h.overflow_iff htop
  refine ⟨fun hle => ?inf, fun hlt => ?finite⟩
  case inf =>
    rw [habs, ← hover] at hle
    have hsign : decide ((if neg then -1 else 1) * r < 0) = neg := by
      cases neg <;> simp [hr, hr.le]
    rw [if_pos hle, unpack_infinity, hsign]
  case finite =>
    rw [habs, ← not_le, ← hover] at hlt
    rw [if_neg hlt]
    have hplace : q = f.minExp + (q - f.minExp).toNat := by
      have := h.minExp_le
      omega
    have hk : (q - f.minExp).toNat = 0 ∨ f.expUnit ≤ sig := h.le_sig.imp_left (by omega)
    have hplaced := toRat_unpack_place neg hk h.sig_le (Nat.not_le.1 hlt)
    rw [← hplace, signedRat_eq_sign_mul] at hplaced
    refine ⟨_, hplaced, fun z Z hZ => ?_⟩
    obtain ⟨neg', m, e, hz, rfl⟩ := Datum.toRat_eq_some hZ
    obtain ⟨hm, he⟩ := lt_of_unpack_eq_finite hz
    have hbound : signedInt (neg ^^ neg') m < 2 * f.expUnit := by
      cases neg <;> cases neg' <;> simp only [signedInt, Bool.xor_true, Bool.xor_false, Bool.not_true, Bool.not_false,
        if_true, Bool.false_eq_true, if_false] <;> omega
    obtain ⟨hle, htie⟩ := h.near_le he hbound
    rw [signedRat_eq_xor neg, abs_sign_mul_sub, abs_sign_mul_sub]
    refine ⟨hle, fun heq => (htie heq).imp (fun hs => by rw [hs]) fun heven => ?_⟩
    exact withSign_even hfrac neg _ heven

end RoundsTo

/-! ### The model's rounding -/

/-- A rounded quotient is a nearest integer, an even one at a tie. -/
theorem roundQuotient_near (num den : Nat) (hd : 0 < den) :
    |(roundQuotient num den : ℚ) - num / den| ≤ 1 / 2 ∧
      (|(roundQuotient num den : ℚ) - num / den| = 1 / 2 → roundQuotient num den % 2 = 0) := by
  obtain ⟨hlo, hhi, htie⟩ := roundQuotient_spec num den hd
  generalize roundQuotient num den = k at *
  have hd' : (0 : ℚ) < den := by exact_mod_cast hd
  have hlo' : (2 * num : ℚ) ≤ 2 * (k * den) + den := by exact_mod_cast hlo
  have hhi' : (2 * (k * den) : ℚ) ≤ 2 * num + den := by exact_mod_cast hhi
  have hnum : (num : ℚ) = num / den * den := (div_mul_cancel₀ _ hd'.ne').symm
  generalize (num : ℚ) / den = r at *
  rw [hnum] at hlo' hhi'
  have hlow : r - k ≤ 1 / 2 := le_of_mul_le_mul_right (by linarith) hd'
  have hhigh : k - r ≤ 1 / 2 := le_of_mul_le_mul_right (by linarith) hd'
  refine ⟨abs_le.2 ⟨by linarith, hhigh⟩, fun heq => htie ?_⟩
  rcases (abs_eq (by norm_num)).1 heq with h | h
  · right
    have hk : (k : ℚ) = r + 1 / 2 := by linarith
    have : (2 * (k * den) : ℚ) = 2 * num + den := by rw [hnum, hk]; ring
    exact_mod_cast this
  · left
    have hk : r = (k : ℚ) + 1 / 2 := by linarith
    have : (2 * num : ℚ) = 2 * (k * den) + den := by rw [hnum, hk]; ring
    exact_mod_cast this

/-- The two integers the model divides are in the ratio of the number to its place. -/
theorem scaled_quotient (num : Nat) {den : Nat} (hd : 0 < den) (exp q : Int) :
    ((num * 2 ^ (exp - q).toNat : Nat) : ℚ) / (den * 2 ^ (q - exp).toNat : Nat) = num / den * 2 ^ exp / 2 ^ q := by
  have hd' : (den : ℚ) ≠ 0 := by exact_mod_cast hd.ne'
  have hpow : (2 : ℚ) ^ (exp - q).toNat * 2 ^ q = 2 ^ exp * 2 ^ (q - exp).toNat := by
    rw [← zpow_natCast, ← zpow_natCast, ← zpow_add₀ (by norm_num), ← zpow_add₀ (by norm_num)]
    congr 1
    omega
  push_cast
  rw [div_mul_eq_mul_div, div_div, div_eq_div_iff (by positivity) (by positivity)]
  linear_combination (num : ℚ) * den * hpow

/-- The model's place and significand of a positive number are those of its rounding. -/
theorem roundsTo_quantum {num den : Nat} (hn : 0 < num) (hd : 0 < den) (exp : Int) :
    f.RoundsTo (num / den * 2 ^ exp) (f.quantum num den exp)
      (roundQuotient (num * 2 ^ (exp - f.quantum num den exp).toNat)
        (den * 2 ^ (f.quantum num den exp - exp).toNat)) := by
  obtain ⟨hlog, hlog'⟩ := floorLog2_spec num den hn hd
  have hd' : (0 : ℚ) < den := by exact_mod_cast hd
  rw [← le_div_iff₀ hd'] at hlog
  rw [← div_lt_iff₀ hd'] at hlog'
  have hexp := two_zpow_pos exp
  have hunit : (f.expUnit : ℚ) = 2 ^ (f.fracBits : Int) := by
    rw [zpow_natCast, expUnit]
    push_cast
    rfl
  have two : (2 : ℚ) ≠ 0 := by norm_num
  obtain ⟨hnear, htie⟩ := roundQuotient_near (num * 2 ^ (exp - f.quantum num den exp).toNat)
    (den * 2 ^ (f.quantum num den exp - exp).toNat) (Nat.mul_pos hd (Nat.two_pow_pos _))
  rw [scaled_quotient num hd] at hnear htie
  refine ⟨hnear, htie, le_max_right .., ?top, ?normal⟩
  case top =>
    have hq : floorLog2 num den + exp - f.fracBits ≤ f.quantum num den exp := le_max_left ..
    calc (num / den * 2 ^ exp : ℚ) < 2 ^ (floorLog2 num den + 1) * 2 ^ exp := mul_lt_mul_of_pos_right hlog' hexp
      _ = 2 ^ (floorLog2 num den + 1 + exp) := (zpow_add₀ two _ _).symm
      _ ≤ 2 ^ (f.fracBits + f.quantum num den exp + 1) := zpow_le_zpow_right₀ (by norm_num) (by omega)
      _ = 2 * f.expUnit * 2 ^ f.quantum num den exp := by
        rw [hunit, zpow_add_one₀ two, zpow_add₀ two]
        ring
  case normal =>
    refine (max_choice (floorLog2 num den + exp - f.fracBits) f.minExp).symm.imp id fun hq => ?_
    calc f.expUnit * 2 ^ f.quantum num den exp = (2 : ℚ) ^ (floorLog2 num den + exp) := by
          rw [hunit, quantum, hq, ← zpow_add₀ two]
          congr 1
          omega
      _ = 2 ^ floorLog2 num den * 2 ^ exp := zpow_add₀ two _ _
      _ ≤ num / den * 2 ^ exp := mul_le_mul_of_nonneg_right hlog hexp.le

theorem overflowAt_pos (f : FloatFormat) : 0 < f.overflowAt := by
  have hpow : (1 : ℚ) < 2 ^ (f.fracBits + 2) := one_lt_pow₀ (by norm_num) (by omega)
  exact mul_pos (by linarith) (two_zpow_pos _)

/-- A zero is a correctly rounded 0. -/
theorem isRounded_zero (htop : 3 ≤ f.topExp) (neg : Bool) : f.IsRounded 0 (f.withSign neg 0) := by
  have hpos := f.overflowAt_pos
  have hplace := toRat_unpack_place (f := f) neg (k := 0) (sig := 0) (.inl rfl) (Nat.zero_le _)
    (by rw [Nat.zero_mul]; exact Nat.mul_pos (by omega) f.expUnit_pos)
  have hval : signedRat neg ((0 : Nat) : ℚ) (f.minExp + ((0 : Nat) : Int)) = 0 := by simp [signedRat]
  rw [hval, Nat.zero_mul] at hplace
  refine ⟨fun hle => ?_, fun _ => ⟨0, hplace, fun z Z hZ => ?_⟩⟩
  · rw [abs_zero] at hle
    exact absurd hle (not_le.2 hpos)
  · rw [sub_zero, sub_zero, abs_zero]
    exact ⟨abs_nonneg Z, fun h => .inl (abs_eq_zero.1 h.symm)⟩

/-- The model's rounding is correct. -/
theorem isRounded_round (hfrac : 1 ≤ f.fracBits) (htop : 3 ≤ f.topExp) (neg : Bool) (num : Nat) {den : Nat}
    (hd : 0 < den) (exp : Int) : f.IsRounded (signedRat neg (num / den) exp) (f.round neg num den exp) := by
  rcases Nat.eq_zero_or_pos num with rfl | hn
  · have hval : signedRat neg ((0 : Nat) / den) exp = 0 := by simp [signedRat]
    rw [hval]
    exact isRounded_zero htop neg
  · have hr : (0 : ℚ) < num / den * 2 ^ exp := by positivity
    have hround := (f.roundsTo_quantum hn hd exp).isRounded hfrac htop hr neg
    rw [signedRat_eq_sign_mul, FloatFormat.round, if_neg hn.ne']
    exact hround

/-! ### The operations -/

/-- A sign and a magnitude of an integer. -/
theorem signedRat_natAbs (z : Int) (a : Bool) (e : Int) :
    signedRat (if z = 0 then a else decide (z < 0)) ((z.natAbs : Nat) / (1 : Nat)) e = z * 2 ^ e := by
  rcases lt_trichotomy z 0 with h | rfl | h
  · have habs : ((z.natAbs : Nat) : ℚ) = -z := by
      rw [Nat.cast_natAbs, abs_of_neg h, Int.cast_neg]
    simp [signedRat, h.ne, h, habs]
  · simp [signedRat]
  · have habs : ((z.natAbs : Nat) : ℚ) = z := by
      rw [Nat.cast_natAbs, abs_of_pos h]
    simp [signedRat, h.ne', h.le, habs]

theorem signedRat_mul (a b : Bool) (m n : ℚ) (e g : Int) :
    signedRat a m e * signedRat b n g = signedRat (a ^^ b) (m * n) (e + g) := by
  rw [signedRat, signedRat, signedRat, zpow_add₀ (by norm_num)]
  cases a <;> cases b <;> simp <;> ring

theorem signedRat_div (a b : Bool) (m n : ℚ) (e g : Int) :
    signedRat a m e / signedRat b n g = signedRat (a ^^ b) (m / n) (e - g) := by
  rw [signedRat, signedRat, signedRat, zpow_sub₀ (by norm_num)]
  cases a <;> cases b <;> simp [neg_div, div_neg] <;> ring

/-- A finite sum is the rounding of the exact one. -/
theorem add_isRounded (hfrac : 1 ≤ f.fracBits) (htop : 3 ≤ f.topExp) {x y : Datum} {X Y : ℚ} {b : Nat}
    (hX : x.toRat = some X) (hY : y.toRat = some Y) (h : f.add x y = some b) : f.IsRounded (X + Y) b := by
  obtain ⟨a, m, e, rfl, rfl⟩ := Datum.toRat_eq_some hX
  obtain ⟨c, n, g, rfl, rfl⟩ := Datum.toRat_eq_some hY
  rw [add_finite] at h
  obtain rfl := Option.some.inj h
  rw [signedRat_add, ← signedRat_natAbs _ (a && c)]
  exact isRounded_round hfrac htop _ _ Nat.one_pos _

/-- Every operation on finite data, a zero divisor aside, is the rounding of the exact one. -/
theorem op_isRounded (hfrac : 1 ≤ f.fracBits) (htop : 3 ≤ f.topExp) {op : ArithOp} {x y : Datum} {X Y : ℚ} {b : Nat}
    (hX : x.toRat = some X) (hY : y.toRat = some Y) (hdiv : op = .div → Y ≠ 0) (h : f.op op x y = some b) :
    f.IsRounded (exactRat op X Y) b := by
  cases op with
  | add => exact add_isRounded hfrac htop hX hY h
  | sub =>
    rw [exactRat, sub_eq_add_neg]
    exact add_isRounded hfrac htop hX (Datum.toRat_negate hY) h
  | mul =>
    obtain ⟨a, m, e, rfl, rfl⟩ := Datum.toRat_eq_some hX
    obtain ⟨c, n, g, rfl, rfl⟩ := Datum.toRat_eq_some hY
    obtain rfl := Option.some.inj h
    have hround := isRounded_round hfrac htop (a ^^ c) (m * n) Nat.one_pos (e + g)
    rwa [Nat.cast_one, div_one, Nat.cast_mul, ← signedRat_mul] at hround
  | div =>
    obtain ⟨a, m, e, rfl, rfl⟩ := Datum.toRat_eq_some hX
    obtain ⟨c, n, g, rfl, rfl⟩ := Datum.toRat_eq_some hY
    have hn : n ≠ 0 := by
      rintro rfl
      exact hdiv rfl (by simp [signedRat])
    rw [FloatFormat.op, FloatFormat.div, if_neg hn] at h
    obtain rfl := Option.some.inj h
    have hround := isRounded_round hfrac htop (a ^^ c) m (Nat.pos_of_ne_zero hn) (e - g)
    rwa [← signedRat_div] at hround

/-- An operation on finite data, a zero divisor aside, is not NaN. -/
theorem op_ne_none_of_toRat {op : ArithOp} {x y : Datum} {X Y : ℚ} (hX : x.toRat = some X) (hY : y.toRat = some Y)
    (hdiv : op = .div → Y ≠ 0) : f.op op x y ≠ none := by
  obtain ⟨a, m, e, rfl, rfl⟩ := Datum.toRat_eq_some hX
  obtain ⟨c, n, g, rfl, rfl⟩ := Datum.toRat_eq_some hY
  rw [ne_eq, op_eq_none_iff]
  rintro (h | h | ⟨_, _, h, -⟩ | ⟨-, ⟨c', g', h⟩, hop⟩ | ⟨-, ⟨-, _, h⟩ | ⟨⟨_, h⟩, -⟩⟩) <;> cases h
  exact hdiv hop (by simp [signedRat])

/-- The same on bit patterns: the result fits the width and is not NaN. -/
theorem Encodes.opBits_isRounded {w : Nat} {nan : BitVec w → Bool} {inf mag sgn : BitVec w}
    (H : f.Encodes nan inf mag sgn) (hfrac : 1 ≤ f.fracBits) (htop : 3 ≤ f.topExp) {op : ArithOp} {x y : BitVec w}
    {X Y : ℚ} (hX : (f.unpack x.toNat).toRat = some X) (hY : (f.unpack y.toNat).toRat = some Y)
    (hdiv : op = .div → Y ≠ 0) : ∃ b, f.opBits op x y = some b ∧ f.IsRounded (exactRat op X Y) b.toNat := by
  obtain ⟨n, hn⟩ := Option.ne_none_iff_exists'.1 (f.op_ne_none_of_toRat hX hY hdiv)
  obtain ⟨neg, hsign⟩ := op_hasSign hn
  refine ⟨BitVec.ofNat w n, by rw [opBits, hn, Option.map_some], ?_⟩
  rw [BitVec.toNat_ofNat, Nat.mod_eq_of_lt (H.hasSign_spec hsign).1]
  exact op_isRounded hfrac htop hX hY hdiv hn

end FloatFormat

/-- Settles O48: `op_isRounded` for the two formats, and `opBits_isRounded` for their bit patterns. -/
theorem floatOperationsRoundToNearestEven : Obligations.FloatOperationsRoundToNearestEven := by
  refine ⟨?data, ?bits32, ?bits64⟩
  case data =>
    rintro f (rfl | rfl) op x y X Y b hX hY hdiv h
    · exact FloatFormat.op_isRounded (by decide) (by decide) hX hY hdiv h
    · exact FloatFormat.op_isRounded (by decide) (by decide) hX hY hdiv h
  case bits32 => exact fun _ _ _ _ _ hX hY hdiv => binary32_encodes.opBits_isRounded (by decide) (by decide) hX hY hdiv
  case bits64 => exact fun _ _ _ _ _ hX hY hdiv => binary64_encodes.opBits_isRounded (by decide) (by decide) hX hY hdiv

end Sys2Proof.Machine
end
